-- ==== Sys2Proof/Word.lean ====
section
/-! DEFINITION. The word types of PFB-FC (00_scope.md rule R9). -/

namespace Sys2Proof

/-- A page byte, a transport byte, RDATA, CMDBUF, and the X and Y fields (R9, R20). -/
abbrev Byte := BitVec 8

/-- A command word (R9, R70). -/
abbrev Word := BitVec 32

/-- A page number p of 0..7 (R20, R25). -/
abbrev Page := BitVec 3

/-- A column number c of 0..127 (R20, R25). -/
abbrev Column := BitVec 7

end Sys2Proof
end

