-- ==== Sys2Proof/Syntax.lean ====
section
/-! DEFINITION. The commands of PFB-FC: one constructor per row of spec/opcode_table.json (30_encoding.md R73, R74). -/

namespace Sys2Proof

/-- A decoded command word, with the fields that R73 says its opcode reads and no others. -/
inductive Instr where
  /-- OP 0x0 (R135). -/
  | nop
  /-- OP 0x1: pixel column x, pixel row y, on or off (R101). -/
  | setpx (x y : Byte) (on : Bool)
  /-- OP 0x2: pixel column x, pixel row y (R103). -/
  | getpx (x y : Byte)
  /-- OP 0x3 (R107). -/
  | clear
  /-- OP 0x4 (R132). -/
  | flush
  /-- OP 0x5: the command byte to send (R136). -/
  | cmd (byte : Byte)
  /-- OP 0x6: column (in X), page (in Y) (R105). -/
  | rdbyte (col page : Byte)
  /-- OP 0x7 (R139). -/
  | clrstat
  /-- OP 0x8 to 0xF, the opcode itself kept as R77's RESERVED(op) has it (R138). -/
  | reserved (op : BitVec 4)
  deriving DecidableEq, Repr

end Sys2Proof
end

