-- ==== Sys2Proof/WellFormed.lean ====
section
/-! DEFINITION. Which commands an encoding stands for: all, but that RESERVED holds an opcode of 0x8..0xF (R77). -/

namespace Sys2Proof

/-- The operand ranges of R78 are those of the field widths, so the one check left is R77's `op in 0x8..0xF`. -/
def Instr.wellFormed : Instr → Bool
  | .nop => true
  | .setpx _ _ _ => true
  | .getpx _ _ => true
  | .clear => true
  | .flush => true
  | .cmd _ => true
  | .rdbyte _ _ => true
  | .clrstat => true
  | .reserved op => 8 ≤ op.toNat

end Sys2Proof
end

