-- ==== Sys2Proof/Decode.lean ====
section
/-! DEFINITION. The decoder (30_encoding.md R71, R72, R77), total on every 32-bit word, and after it the encoder and
the opcode map of R74. No word is refused: every value of OP has its row (R74), and ignored bits are ignored (R75, log 18). -/

namespace Sys2Proof

/-- OP = w[31:28] (R72). -/
def opField (w : Word) : BitVec 4 := w.extractLsb' 28 4
/-- ON = w[16] (R72). -/
def onField (w : Word) : Bool := w.getLsbD 16
/-- Y = w[15:8] (R72). -/
def yField (w : Word) : Byte := w.extractLsb' 8 8
/-- X = w[7:0], also read as BYTE (R72). -/
def xField (w : Word) : Byte := w.extractLsb' 0 8

/-- R77's `decode`. -/
def decode (w : Word) : Instr :=
  match opField w with
  | 0x0#4 => .nop
  | 0x1#4 => .setpx (xField w) (yField w) (onField w)
  | 0x2#4 => .getpx (xField w) (yField w)
  | 0x3#4 => .clear
  | 0x4#4 => .flush
  | 0x5#4 => .cmd (xField w)
  | 0x6#4 => .rdbyte (xField w) (yField w)
  | 0x7#4 => .clrstat
  | op => .reserved op

/-- The opcode of a command (R73). -/
def Instr.opcode : Instr → BitVec 4
  | .nop => 0x0
  | .setpx _ _ _ => 0x1
  | .getpx _ _ => 0x2
  | .clear => 0x3
  | .flush => 0x4
  | .cmd _ => 0x5
  | .rdbyte _ _ => 0x6
  | .clrstat => 0x7
  | .reserved op => op

/-- A word of format F (R71), its reserved bits 27:17 at 0: `op<<28 | on<<16 | y<<8 | x`, as R77 writes it. -/
def formatF (op : BitVec 4) (on : Bool) (y x : Byte) : Word :=
  op.setWidth 32 <<< 28 ||| (BitVec.ofBool on).setWidth 32 <<< 16 ||| y.setWidth 32 <<< 8 ||| x.setWidth 32

/-- R77's `encode`: the fields an opcode does not read are 0. R77 writes no line for RESERVED(op); here it is the word
whose only nonzero field is OP (log 8). -/
def encode : Instr → Word
  | .nop => formatF 0x0 false 0 0
  | .setpx x y on => formatF 0x1 on y x
  | .getpx x y => formatF 0x2 false y x
  | .clear => formatF 0x3 false 0 0
  | .flush => formatF 0x4 false 0 0
  | .cmd byte => formatF 0x5 false 0 byte
  | .rdbyte col page => formatF 0x6 false page col
  | .clrstat => formatF 0x7 false 0 0
  | .reserved op => formatF op false 0 0

/-- The bits of a word that its opcode reads: OP and the fields R73 does not mark "-". The others are ignored (R75). -/
def usedBits (op : BitVec 4) : Word :=
  match op with
  | 0x1#4 => 0xF001FFFF
  | 0x2#4 => 0xF000FFFF
  | 0x5#4 => 0xF00000FF
  | 0x6#4 => 0xF000FFFF
  | _ => 0xF0000000

/-- One row of the opcode map: the word belongs to the row when `w & mask = value` (R74). -/
structure OpcodeRow where
  mnemonic : String
  value : Word
  mask : Word
  deriving DecidableEq, Repr

/-- `(w & mask) = match` (R74). -/
def OpcodeRow.fits (r : OpcodeRow) (w : Word) : Bool := w &&& r.mask == r.value

/-- The opcode map of R74, with 0x8..0xF as the one row of spec/opcode_table.json. -/
def opcodeTable : List OpcodeRow :=
  [⟨"NOP", 0x00000000, 0xF0000000⟩, ⟨"SETPX", 0x10000000, 0xF0000000⟩, ⟨"GETPX", 0x20000000, 0xF0000000⟩,
   ⟨"CLEAR", 0x30000000, 0xF0000000⟩, ⟨"FLUSH", 0x40000000, 0xF0000000⟩, ⟨"CMD", 0x50000000, 0xF0000000⟩,
   ⟨"RDBYTE", 0x60000000, 0xF0000000⟩, ⟨"CLRSTAT", 0x70000000, 0xF0000000⟩,
   ⟨"RESERVED", 0x80000000, 0x80000000⟩]

/-- The row of the opcode table that a command belongs to (R73, R74). -/
def Instr.mnemonic : Instr → String
  | .nop => "NOP"
  | .setpx _ _ _ => "SETPX"
  | .getpx _ _ => "GETPX"
  | .clear => "CLEAR"
  | .flush => "FLUSH"
  | .cmd _ => "CMD"
  | .rdbyte _ _ => "RDBYTE"
  | .clrstat => "CLRSTAT"
  | .reserved _ => "RESERVED"

/-- The command word whose low `nbits` bits are those of `w`, the rest 0. -/
def tableWord (nbits w : Nat) : Word := BitVec.ofNat 32 (w % 2 ^ nbits)

/-- What the decoder reads from the table's numbering of a word's bits, which is the numbering of R11 and R71. -/
def decodeTableWord (nbits w : Nat) : Option Instr := some (decode (tableWord nbits w))

end Sys2Proof
end

