-- ==== Sys2Proof/Config.lean ====
section
/-! DEFINITION. What the spec fixes for every block (geometry, R8), what it leaves open as free values
(FB_RESET, and the transport wires while `tx_valid` is 0), and the parameters of the host's software (R10). -/

namespace Sys2Proof.Config

/-- W: pixel columns (R8). -/
def columns : Nat := 128
/-- H: pixel rows (R8). -/
def rows : Nat := 64
/-- NPAGES: pages of eight rows (R8). -/
def pages : Nat := 8
/-- PAGE_BITS: rows in a page (R8). -/
def pageBits : Nat := 8
/-- FB_BYTES = W * NPAGES (R8). -/
def fbBytes : Nat := columns * pages
/-- FRAME_BYTES = NPAGES * (3 + W): what one flush sends (R8). -/
def frameBytes : Nat := pages * (3 + columns)

/-- FB_RESET (R10, R34, R221; decision D15), a FREE VALUE: the page byte at (page, column) that the n-th reset
leaves. It is arbitrary after EVERY reset, so each reset has its own array (log 3). -/
opaque fbReset : Nat → Page → Column → Byte

/-- FREE VALUE (93_implementation_defined.md U5): `tx_byte` while `tx_valid` is 0. By R32 it can depend on no more
than PAGE, COL, CMDBUF and FB, and by R27 not on CMDBUF (log 12). -/
opaque idleTxByte : Page → Column → List Host.Cell → Byte

/-- FREE VALUE (93_implementation_defined.md U5): `tx_dc` while `tx_valid` is 0 (log 12). -/
opaque idleTxDc : Page → Column → List Host.Cell → Bool

end Sys2Proof.Config

namespace Sys2Proof

/-- The 13 configuration entries of INIT_SEQUENCE, in the order R181 lists them. -/
inductive InitEntry where
  | displayOff | startLine | contrast | segmentRemap | displayMode | multiplexRatio | scanDirection
  | displayOffset | clockDivider | chargePumpPhaseLength | comPinConfig | vcomhLevel | displayOn
  deriving DecidableEq, Repr

/-- The order of R181. -/
def InitEntry.inOrder : List InitEntry :=
  [.displayOff, .startLine, .contrast, .segmentRemap, .displayMode, .multiplexRatio, .scanDirection,
   .displayOffset, .clockDivider, .chargePumpPhaseLength, .comPinConfig, .vcomhLevel, .displayOn]

/-- The parameters of the host's software that SRC does not give (R10). Every host sequence takes them as an
argument, so nothing is assumed about their bytes (log 14). -/
structure HostParams where
  /-- The command byte of an entry of INIT_SEQUENCE (R181). -/
  initCommand : InitEntry → Byte
  /-- The value bytes of an entry, none or more (R181). -/
  initValues : InitEntry → List Byte
  /-- DISPLAY_ON_SEQ (R183). -/
  displayOnSeq : List Byte
  /-- DISPLAY_OFF_SEQ (R183). -/
  displayOffSeq : List Byte
  /-- RESET_SETTLE_MS (R180, R228). -/
  resetSettleMs : Nat
  /-- `glyph index size t` is byte t of GLYPH(index, size), for t below L(size) (R165). -/
  glyph : Nat → Nat → Nat → Byte

/-- INIT_SEQUENCE as the flat list of bytes that R180 sends. -/
def HostParams.initSequence (P : HostParams) : List Byte :=
  InitEntry.inOrder.flatMap fun e => P.initCommand e :: P.initValues e

end Sys2Proof
end

