-- ==== Sys2Proof/Machine/Memory.lean ====
section
/-! DEFINITION. The framebuffer store (10_state.md R20) as a canonical list of cells.

A page byte is named by (page, column) and by nothing else (R20, R50). `Memory.key` is the model's own place for it in
the list and is seen by no command (log 1). A page byte that is not listed reads 0x00, what CLEAR leaves (log 2). -/

namespace Sys2Proof.Machine

/-- FB as a list of (key, byte): keys rising, no byte 0x00 (`Memory.wf`). -/
abbrev Memory := List Host.Cell

/-- What a page byte that is not listed reads as (log 2). -/
def Memory.background : Byte := 0x00

/-- The list key of `FB[p][c]` (log 1). -/
def Memory.key (p : Page) (c : Column) : Nat := Config.columns * p.toNat + c.toNat

/-- The byte at a key. -/
def Memory.lookup : Memory → Nat → Byte
  | [], _ => Memory.background
  | e :: m, k => if e.1 = k then e.2 else Memory.lookup m k

/-- The list without any cell of a key. -/
def Memory.erase (m : Memory) (k : Nat) : Memory := m.filter fun e => e.1 != k

/-- A cell put at its place in a rising list that has no cell of its key. -/
def Memory.insert (k : Nat) (v : Byte) : Memory → Memory
  | [] => [(k, v)]
  | e :: m => if e.1 < k then e :: Memory.insert k v m else (k, v) :: e :: m

/-- The list with the byte at a key replaced, in canonical form again. -/
def Memory.store (m : Memory) (k : Nat) (v : Byte) : Memory :=
  if v = Memory.background then m.erase k else Memory.insert k v (m.erase k)

/-- `FB[p][c]` (R12, R20). -/
def Memory.read (m : Memory) (p : Page) (c : Column) : Byte := m.lookup (Memory.key p c)

/-- `FB[p][c] <- v` (R12, R20). -/
def Memory.write (m : Memory) (p : Page) (c : Column) (v : Byte) : Memory := m.store (Memory.key p c) v

/-- The all-zero framebuffer (R107). -/
def Memory.zero : Memory := []

/-- The byte of an array at a list key. -/
def Memory.byteAt (f : Page → Column → Byte) (k : Nat) : Byte :=
  f (BitVec.ofNat 3 (k / Config.columns)) (BitVec.ofNat 7 (k % Config.columns))

/-- The cell of a key, or none where the byte is the background. -/
def Memory.cell (f : Nat → Byte) (k : Nat) : Option Host.Cell :=
  if f k = Memory.background then none else some (k, f k)

/-- The cells of the first n keys. -/
def Memory.cells (f : Nat → Byte) (n : Nat) : Memory := (List.range n).filterMap (Memory.cell f)

/-- The canonical list of the array `f` of 8 x 128 bytes. -/
@[irreducible] def Memory.ofBytes (f : Page → Column → Byte) : Memory :=
  Memory.cells (Memory.byteAt f) Config.fbBytes

/-- The canonical form from a lower bound on: keys at least `lo`, strictly rising and below FB_BYTES, no byte the
background. -/
def Memory.wfFrom : Nat → Memory → Bool
  | _, [] => true
  | lo, e :: m => lo ≤ e.1 && e.1 < Config.fbBytes && e.2 != Memory.background && Memory.wfFrom (e.1 + 1) m

/-- The canonical form: equal framebuffers are equal lists. -/
def Memory.wf (m : Memory) : Bool := Memory.wfFrom 0 m

end Sys2Proof.Machine
end

