-- ==== Sys2Proof/Machine/State.lean ====
section
/-! DEFINITION. The state of PFB-FC (10_state.md): the block's registers and framebuffer, the transport trace, and the
wires its outside agents drive (00_scope.md R13). -/

namespace Sys2Proof.Machine

/-- The FSM's PHASE (R25). The codes 6 and 7 never occur (R26(d)), so they have no name here. -/
inductive Phase where
  | idle | pgsel | collo | colhi | data | cmdout
  deriving DecidableEq, Repr

/-- The kind of a transport byte, driven on `tx_dc` (R9, R12). -/
inductive Kind where
  | command | data
  deriving DecidableEq, Repr

/-- One entry of the transport trace (R12). -/
structure TraceEntry where
  byte : Byte
  kind : Kind
  deriving DecidableEq, Repr

/-- The levels in one step of the input wires that the agents outside the block drive (R23): `rst`, `cmd_valid` (the
host presents its next word, if it has one), `tx_ready`. -/
structure PortInputs where
  rst : Bool
  cmdValid : Bool
  txReady : Bool
  deriving DecidableEq, Repr

/-- The whole machine. -/
structure State where
  /-- PHASE (R25). -/
  phase : Phase
  /-- PAGE, the page being walked (R25). -/
  page : Page
  /-- COL, the column being sent while PHASE = DATA (R25). -/
  col : Column
  /-- CMDBUF (R27). -/
  cmdbuf : Byte
  /-- STATUS.ILL (R28, R30). -/
  ill : Bool
  /-- STATUS.OOB (R28, R30). -/
  oob : Bool
  /-- RDATA (R31). -/
  rdata : Byte
  /-- The framebuffer FB (R20). -/
  fb : Memory
  /-- The transport trace, oldest entry first: the block's output history, which it never reads (R12, R33). -/
  trace : List TraceEntry
  /-- The words the host has still to hand over, in order. The head is `cmd_word` (R23, R131). -/
  cmdQueue : List Word
  /-- The input wires in this step (R23). -/
  ports : PortInputs
  /-- The input wires in the steps after this one. A wire keeps its level when the list is at its end (log 5). -/
  upcoming : List PortInputs
  /-- The model's own: which array `Config.fbReset` gives at the next reset (log 3). -/
  resetIndex : Nat
  deriving DecidableEq, Repr

/-- PFB-FC raises no exceptions and has no trap, fault or abort state (R200): there is no reason to name (log 4). -/
inductive Fault where
  deriving DecidableEq, Repr

/-- Why a step has no meaning. No step of this model answers one. -/
inductive Refusal where
  /-- Raised by no arm of `exec`: every command has its meaning. Safe: a refused step proves nothing. -/
  | notModelled (mnemonic : String)
  deriving DecidableEq, Repr

/-- Right after the power-on reset (R34, R220): every register as R34 gives it, FB the arbitrary FB_RESET, the trace
empty (log 7). The input wires and the host's words are the model's choice (log 5). -/
def State.reset : State where
  phase := .idle
  page := 0
  col := 0
  cmdbuf := 0x00
  ill := false
  oob := false
  rdata := 0x00
  fb := Memory.ofBytes (Config.fbReset 0)
  trace := []
  cmdQueue := []
  ports := ⟨false, true, true⟩
  upcoming := []
  resetIndex := 1

end Sys2Proof.Machine
end

