-- ==== Sys2Proof/Machine/Flags.lean ====
section
/-! DEFINITION. STATUS: the sticky flags and the word the `status` port drives (10_state.md R28 to R30). -/

namespace Sys2Proof.Machine

/-- `STATUS.OOB <- 1` (R30). -/
def State.setOob (s : State) : State := { s with oob := true }

/-- `STATUS.ILL <- 1` (R30). -/
def State.setIll (s : State) : State := { s with ill := true }

/-- `STATUS.ILL <- 0; STATUS.OOB <- 0` (R30). -/
def State.clearFlags (s : State) : State := { s with ill := false, oob := false }

/-- The encoding of PHASE (R25). -/
def Phase.code : Phase → BitVec 3
  | .idle => 0
  | .pgsel => 1
  | .collo => 2
  | .colhi => 3
  | .data => 4
  | .cmdout => 5

/-- `STATUS.BUSY = (PHASE ≠ IDLE)` (R29). -/
def State.busy (s : State) : Bool := s.phase != .idle

/-- `cmd_ready = ~STATUS.BUSY` (R23). -/
def State.cmdReady (s : State) : Bool := !s.busy

/-- The STATUS word: each field at its place in R28's table, every other bit 0. -/
def State.status (s : State) : BitVec 32 :=
  s.col.setWidth 32 <<< 16 ||| s.page.setWidth 32 <<< 8 ||| s.phase.code.setWidth 32 <<< 4 |||
    (BitVec.ofBool s.oob).setWidth 32 <<< 2 ||| (BitVec.ofBool s.ill).setWidth 32 <<< 1 |||
    (BitVec.ofBool s.busy).setWidth 32

end Sys2Proof.Machine
end

