-- ==== Sys2Proof/Machine/Ops.lean ====
section
/-! DEFINITION. The named operations over the state: FB, RDATA, the FSM position, the trace, the input wires, reset.

There is no operation that takes an exception and none that returns from one: the hardware has neither (R200, R203). -/

namespace Sys2Proof.Machine

/-- `FB[p][c]` (R12). -/
def State.readByte (s : State) (p : Page) (c : Column) : Byte := s.fb.read p c

/-- `FB[p][c] <- v` (R12). -/
def State.writeByte (s : State) (p : Page) (c : Column) (v : Byte) : State := { s with fb := s.fb.write p c v }

/-- `FB[p][c] <- 0x00` for every p and c, in one step (R107). -/
def State.zeroFb (s : State) : State := { s with fb := Memory.zero }

/-- `RDATA <- v` (R31). -/
def State.setRdata (s : State) (v : Byte) : State := { s with rdata := v }

/-- `CMDBUF <- b` (R27). -/
def State.setCmdbuf (s : State) (b : Byte) : State := { s with cmdbuf := b }

/-- `(PHASE, PAGE, COL) <- (ph, p, c)` (R25). -/
def State.setPosition (s : State) (ph : Phase) (p : Page) (c : Column) : State :=
  { s with phase := ph, page := p, col := c }

/-- One entry more on the transport trace (R12, R140). -/
def State.append (s : State) (e : TraceEntry) : State := { s with trace := s.trace ++ [e] }

/-- The input wires as they stand in the next step (log 5). -/
def State.advancePorts (s : State) : State :=
  match s.upcoming with
  | [] => s
  | p :: ps => { s with ports := p, upcoming := ps }

/-- The host's word is taken: the host may present its next one (R131). -/
def State.takeWord (s : State) : State := { s with cmdQueue := s.cmdQueue.tail }

/-- The reset step of R221. It appends nothing to the trace and takes no word from the host. FB becomes an arbitrary
array, another one at every reset (log 3). -/
def State.resetBlock (s : State) : State :=
  { s with
    phase := .idle, page := 0, col := 0, cmdbuf := 0x00, ill := false, oob := false, rdata := 0x00,
    fb := Memory.ofBytes (Config.fbReset s.resetIndex), resetIndex := s.resetIndex + 1 }

end Sys2Proof.Machine
end

