-- ==== Sys2Proof/Machine/Transport.lean ====
section
/-! DEFINITION. The transport port and the flush controller's walk: what the block offers (10_state.md R32) and the
XFER step (41_controller_ops.md R140, R141). -/

namespace Sys2Proof.Machine

/-- The page-select command byte `0xB0 + PAGE` (R32). -/
def pageSelect (p : Page) : Byte := 0xB0#8 + p.setWidth 8

/-- The byte and kind offered on the transport port, or none while `tx_valid` is 0 (R32). -/
def State.offer (s : State) : Option TraceEntry :=
  match s.phase with
  | .idle => none
  | .pgsel => some ⟨pageSelect s.page, .command⟩
  | .collo => some ⟨0x00, .command⟩
  | .colhi => some ⟨0x10, .command⟩
  | .data => some ⟨s.readByte s.page s.col, .data⟩
  | .cmdout => some ⟨s.cmdbuf, .command⟩

/-- `tx_dc`: 0 for Command, 1 for Data (R23). -/
def Kind.dc : Kind → Bool
  | .command => false
  | .data => true

/-- `tx_valid` (R32). -/
def State.txValid (s : State) : Bool := s.offer.isSome

/-- `tx_byte`, a free value while `tx_valid` is 0 (R32, log 12). -/
def State.txByte (s : State) : Byte :=
  match s.offer with
  | some e => e.byte
  | none => Config.idleTxByte s.page s.col s.fb

/-- `tx_dc`, a free value while `tx_valid` is 0 (R32, log 12). -/
def State.txDc (s : State) : Bool :=
  match s.offer with
  | some e => e.kind.dc
  | none => Config.idleTxDc s.page s.col s.fb

/-- The last page of a walk (R141). -/
def lastPage : Page := 7

/-- The last column of a page (R141). -/
def lastColumn : Column := 127

/-- The state at the next position of the walk (R141). The rows of R141 have COL = 0 outside DATA and PAGE = COL = 0 in
CMDOUT. From IDLE there is no XFER, and the position stays (log 10). -/
def State.nextPosition (s : State) : State :=
  match s.phase with
  | .idle => s
  | .pgsel => s.setPosition .collo s.page s.col
  | .collo => s.setPosition .colhi s.page s.col
  | .colhi => s.setPosition .data s.page s.col
  | .data =>
    if s.col = lastColumn then
      if s.page = lastPage then s.setPosition .idle 0 0 else s.setPosition .pgsel (s.page + 1) 0
    else s.setPosition .data s.page (s.col + 1)
  | .cmdout => s.setPosition .idle 0 0

/-- The XFER step (R140): the offered byte goes onto the trace, then the FSM moves by one position. -/
def State.xfer (s : State) : State :=
  match s.offer with
  | some e => (s.append e).nextPosition
  | none => s

end Sys2Proof.Machine
end

