-- ==== Sys2Proof/Machine/Agents.lean ====
section
/-! DEFINITION. Which agent moves next (00_scope.md R13, 41_controller_ops.md R130, R131, R140, 60_exceptions.md R202). -/

namespace Sys2Proof.Machine

/-- The word on the command port while `cmd_valid` is 1 (R23). -/
def State.presented (s : State) : Option Word := if s.ports.cmdValid then s.cmdQueue.head? else none

/-- ACCEPT is enabled iff `cmd_valid = 1` and `STATUS.BUSY = 0` (R131). -/
def State.acceptEnabled (s : State) : Bool := s.presented.isSome && s.cmdReady

/-- XFER is enabled iff PHASE ≠ IDLE, so that `tx_valid` is 1, and `tx_ready = 1` (R140). -/
def State.xferEnabled (s : State) : Bool := s.txValid && s.ports.txReady

/-- What one step of the machine is: the external reset, the ACCEPT of a word, an XFER, or a step in which the block
does not move (log 6). -/
inductive Action where
  | reset
  | accept (w : Word)
  | transfer
  | wait
  deriving DecidableEq, Repr

/-- Reset takes precedence (R202(b)). Then ACCEPT or XFER, never both enabled (R130). -/
def State.action (s : State) : Action :=
  if s.ports.rst then .reset
  else if s.busy then (if s.xferEnabled then .transfer else .wait)
  else
    match s.presented with
    | some w => .accept w
    | none => .wait

end Sys2Proof.Machine
end

