-- ==== Sys2Proof/Machine/Controller.lean ====
section
/-! DEFINITION. The control commands NOP, FLUSH, CMD, CLRSTAT and the reserved opcodes: what their ACCEPT step does
(41_controller_ops.md sections 2 and 3). The XFER steps that follow FLUSH and CMD are in Machine/Transport.lean. -/

namespace Sys2Proof.Machine

open Host (Outcome)

/-- NOP (R135). -/
def execNop (s : State) : Outcome State Fault Refusal := .next s

/-- FLUSH (R132). -/
def execFlush (s : State) : Outcome State Fault Refusal := .next (s.setPosition .pgsel 0 0)

/-- CMD (R136). -/
def execCmd (byte : Byte) (s : State) : Outcome State Fault Refusal :=
  .next ((s.setCmdbuf byte).setPosition .cmdout 0 0)

/-- CLRSTAT (R139). -/
def execClrstat (s : State) : Outcome State Fault Refusal := .next s.clearFlags

/-- RESERVED (R138): which of the eight opcodes it is makes no difference. -/
def execReserved (_op : BitVec 4) (s : State) : Outcome State Fault Refusal := .next s.setIll

end Sys2Proof.Machine
end

