-- ==== Sys2Proof/Machine/Operands.lean ====
section
/-! DEFINITION. The operand forms: how X and Y name a pixel or a page byte (40_framebuffer_ops.md R100, 20_memory.md R50). -/

namespace Sys2Proof.Machine

/-- `InRange(x, y)` (R100). -/
def inRange (x y : Byte) : Bool := x.toNat < Config.columns && y.toNat < Config.rows

/-- The range of the page-byte space: `(c < 128) and (p < 8)` (R50, R105). -/
def byteInRange (c p : Byte) : Bool := c.toNat < Config.columns && p.toNat < Config.pages

/-- The column an in-range X names (R21). -/
def columnOf (x : Byte) : Column := BitVec.ofNat 7 x.toNat

/-- `PageOf(y) = y / 8`, for an in-range row (R100). -/
def pageOf (y : Byte) : Page := BitVec.ofNat 3 (y.toNat / Config.pageBits)

/-- `BitOf(y) = y % 8` (R100). -/
def bitOf (y : Byte) : Nat := y.toNat % Config.pageBits

/-- `Mask(y) = 1 << BitOf(y)`, one-hot (R100). -/
def maskOf (y : Byte) : Byte := 1#8 <<< bitOf y

/-- The page an in-range Y of RDBYTE names: a page index, not a row (R105(b)). -/
def pageIndex (p : Byte) : Page := BitVec.ofNat 3 p.toNat

/-- A page byte with the bits of a mask set or cleared (R101). -/
def setBits (b m : Byte) (on : Bool) : Byte := if on then b ||| m else b &&& ~~~m

/-- `zext_8((b >> n) & 1)` (R103). -/
def pixelBit (b : Byte) (n : Nat) : Byte := (b >>> n) &&& 1#8

end Sys2Proof.Machine
end

