-- ==== Sys2Proof/Machine/Framebuffer.lean ====
section
/-! DEFINITION. The framebuffer commands SETPX, GETPX, RDBYTE, CLEAR (40_framebuffer_ops.md). -/

namespace Sys2Proof.Machine

open Host (Outcome)

/-- SETPX (R101). -/
def execSetpx (x y : Byte) (on : Bool) (s : State) : Outcome State Fault Refusal :=
  if inRange x y then
    .next (s.writeByte (pageOf y) (columnOf x)
      (setBits (s.readByte (pageOf y) (columnOf x)) (maskOf y) on))
  else .next s.setOob

/-- GETPX (R103). -/
def execGetpx (x y : Byte) (s : State) : Outcome State Fault Refusal :=
  if inRange x y then .next (s.setRdata (pixelBit (s.readByte (pageOf y) (columnOf x)) (bitOf y)))
  else .next (s.setRdata 0x00).setOob

/-- RDBYTE (R105). -/
def execRdbyte (col page : Byte) (s : State) : Outcome State Fault Refusal :=
  if byteInRange col page then .next (s.setRdata (s.readByte (pageIndex page) (columnOf col)))
  else .next (s.setRdata 0x00).setOob

/-- CLEAR (R107). It does not flush. -/
def execClear (s : State) : Outcome State Fault Refusal := .next s.zeroFb

end Sys2Proof.Machine
end

