-- ==== Sys2Proof/Machine/Dispatch.lean ====
section
/-! DEFINITION. The ACCEPT step's table of commands (41_controller_ops.md R131): one arm per command.

An arm gives the effect in every state, a busy one too. `step` uses it from idle states alone (log 9). -/

namespace Sys2Proof.Machine

def exec (i : Instr) (s : State) : Host.Outcome State Fault Refusal :=
  match i with
  | .nop => Sys2Proof.Machine.execNop s
  | .setpx x y on => Sys2Proof.Machine.execSetpx x y on s
  | .getpx x y => Sys2Proof.Machine.execGetpx x y s
  | .clear => Sys2Proof.Machine.execClear s
  | .flush => Sys2Proof.Machine.execFlush s
  | .cmd byte => Sys2Proof.Machine.execCmd byte s
  | .rdbyte col page => Sys2Proof.Machine.execRdbyte col page s
  | .clrstat => Sys2Proof.Machine.execClrstat s
  | .reserved op => Sys2Proof.Machine.execReserved op s

end Sys2Proof.Machine
end

