-- ==== Sys2Proof/Machine/Step.lean ====
section
/-! DEFINITION. One step of the machine, and a word put where the next step takes its command from. -/

namespace Sys2Proof.Machine

/-- One step: the agent that `State.action` names moves, and the input wires go on to their next levels. -/
def step (s : State) : Host.Outcome State Fault Refusal :=
  match s.action with
  | .reset => .next s.resetBlock.advancePorts
  | .accept w => exec (decode w) s.takeWord.advancePorts
  | .transfer => .next s.xfer.advancePorts
  | .wait => .next s.advancePorts

/-- `s` with a word presented to an idle block that is not being reset, so that the next step accepts it (log 11). The
host's other words stay behind it. -/
def State.withFetchWord (s : State) (nbits w : Nat) : State :=
  { s with
    phase := .idle, page := 0, col := 0, cmdQueue := tableWord nbits w :: s.cmdQueue,
    ports := ⟨false, true, s.ports.txReady⟩ }

end Sys2Proof.Machine
end

