-- ==== Sys2Proof/Machine/Assembler.lean ====
section
/-! DEFINITION. The assembly syntax (30_encoding.md R78) and the pseudo-instructions (R79), on lines as lists of
characters. Blanks around a mnemonic, a comma and a numeral are skipped (log 15). -/

namespace Sys2Proof.Assembler

/-- The mnemonics of R78, and the pseudo-instructions of R79. -/
inductive Mnemonic where
  | nop | setpx | getpx | clear | flush | cmd | rdbyte | clrstat | pset | pclr | drawPoint
  deriving DecidableEq, Repr

/-- A letter in its capital form. -/
def upper (c : Char) : Char := if 97 ≤ c.toNat ∧ c.toNat ≤ 122 then Char.ofNat (c.toNat - 32) else c

/-- A blank or a tab. -/
def isBlank (c : Char) : Bool := c == ' ' || c == '\t'

/-- The spelling of each mnemonic in capitals. -/
def spellings : List (List Char × Mnemonic) :=
  [(['N', 'O', 'P'], .nop), (['S', 'E', 'T', 'P', 'X'], .setpx), (['G', 'E', 'T', 'P', 'X'], .getpx),
   (['C', 'L', 'E', 'A', 'R'], .clear), (['F', 'L', 'U', 'S', 'H'], .flush), (['C', 'M', 'D'], .cmd),
   (['R', 'D', 'B', 'Y', 'T', 'E'], .rdbyte), (['C', 'L', 'R', 'S', 'T', 'A', 'T'], .clrstat),
   (['P', 'S', 'E', 'T'], .pset), (['P', 'C', 'L', 'R'], .pclr),
   (['D', 'R', 'A', 'W', '_', 'P', 'O', 'I', 'N', 'T'], .drawPoint)]

/-- The mnemonic is case-insensitive (R78). -/
def mnemonicOf (cs : List Char) : Option Mnemonic :=
  (spellings.find? fun e => e.1 == cs.map upper).map Prod.snd

/-- The value of one digit of a base, if it is one. -/
def digit (base : Nat) (c : Char) : Option Nat :=
  let n := (upper c).toNat
  let d := if 48 ≤ n ∧ n ≤ 57 then n - 48 else if 65 ≤ n ∧ n ≤ 70 then n - 55 else base
  if d < base then some d else none

/-- Digits of a base, most significant first, after those that gave `acc`. -/
def digits (base : Nat) : Nat → List Char → Option Nat
  | acc, [] => some acc
  | acc, c :: cs => (digit base c).bind fun d => digits base (acc * base + d) cs

/-- A numeral, decimal or `0x` hexadecimal (R78). -/
def numeral : List Char → Option Nat
  | [] => none
  | '0' :: 'x' :: [] => none
  | '0' :: 'x' :: cs => digits 16 0 cs
  | cs => digits 10 0 cs

/-- A field without the blanks around it. -/
def trim (cs : List Char) : List Char := ((cs.dropWhile isBlank).reverse.dropWhile isBlank).reverse

/-- The fields of a text between its commas. -/
def fields : List Char → List (List Char)
  | [] => [[]]
  | c :: cs =>
    if c == ',' then [] :: fields cs
    else
      match fields cs with
      | [] => [[c]]
      | f :: fs => (c :: f) :: fs

/-- Every field a numeral, or no value at all. -/
def numerals : List (List Char) → Option (List Nat)
  | [] => some []
  | f :: fs => (numeral (trim f)).bind fun n => (numerals fs).map fun ns => n :: ns

/-- An operand of 0..255. A larger one is rejected, not truncated (R78). -/
def byteOperand (n : Nat) : Option Byte := if n ≤ 255 then some (BitVec.ofNat 8 n) else none

/-- An operand of 0..1 (R78). -/
def bitOperand (n : Nat) : Option Bool := if n ≤ 1 then some (n == 1) else none

/-- The command of a mnemonic and its operands (R78, R79). -/
def build : Mnemonic → List Nat → Option Instr
  | .nop, [] => some .nop
  | .setpx, [x, y, on] | .drawPoint, [x, y, on] =>
    (byteOperand x).bind fun x => (byteOperand y).bind fun y => (bitOperand on).map fun on => .setpx x y on
  | .getpx, [x, y] => (byteOperand x).bind fun x => (byteOperand y).map fun y => .getpx x y
  | .clear, [] => some .clear
  | .flush, [] => some .flush
  | .cmd, [b] => (byteOperand b).map fun b => .cmd b
  | .rdbyte, [c, p] => (byteOperand c).bind fun c => (byteOperand p).map fun p => .rdbyte c p
  | .clrstat, [] => some .clrstat
  | .pset, [x, y] => (byteOperand x).bind fun x => (byteOperand y).map fun y => .setpx x y true
  | .pclr, [x, y] => (byteOperand x).bind fun x => (byteOperand y).map fun y => .setpx x y false
  | _, _ => none

/-- One line of assembly: one command, or none where the line is rejected (R78). -/
def assemble (line : List Char) : Option Instr :=
  let body := trim line
  let name := body.takeWhile fun c => !isBlank c
  let rest := trim (body.drop name.length)
  (mnemonicOf name).bind fun m =>
    (if rest.isEmpty then some [] else numerals (fields rest)).bind fun ns => build m ns

end Sys2Proof.Assembler
end

