-- ==== Sys2Proof/Machine/HostSequences.lean ====
section
/-! DEFINITION. The host's software (42_host_sequences.md): for each operation the commands the host issues, in order.
Host arithmetic is on natural numbers (R168). The commands reach the block through `State.cmdQueue`. -/

namespace Sys2Proof.Software

/-- `draw_point` (R161), and R79's pseudo-instruction DRAW_POINT. -/
def drawPoint (x y : Byte) (on : Bool) : List Instr := [.setpx x y on]

/-- `flush` (R161). -/
def flush : List Instr := [.flush]

/-- The public `clear` (R160). -/
def clear : List Instr := [.clear, .flush]

/-- A call of `SETPX_host(cx, cy, v)` (R168). -/
structure PixelCall where
  cx : Nat
  cy : Nat
  v : Bool
  deriving DecidableEq, Repr

/-- What a call of SETPX_host issues: nothing when a coordinate does not fit its field (R168). -/
def PixelCall.issue (p : PixelCall) : Option Instr :=
  if p.cx ≤ 255 ∧ p.cy ≤ 255 then some (.setpx (BitVec.ofNat 8 p.cx) (BitVec.ofNat 8 p.cy) p.v) else none

/-- The numbers `a .. b`, both included (R163). -/
def upTo (a b : Nat) : List Nat := List.range' a (b + 1 - a)

/-- The pixels of `fill_rect`, x outer and y inner (R163). -/
def fillCalls (x1 y1 x2 y2 : Nat) (on : Bool) : List PixelCall :=
  (upTo x1 x2).flatMap fun x => (upTo y1 y2).map fun y => ⟨x, y, on⟩

/-- `fill_rect` (R163). A call outside its precondition is refused: there is no command list (R164, U1, log 17). -/
def fillRect (x1 y1 x2 y2 : Nat) (on : Bool) : Option (List Instr) :=
  if x1 ≤ x2 ∧ y1 ≤ y2 then some ((fillCalls x1 y1 x2 y2 on).filterMap PixelCall.issue ++ [.flush]) else none

/-- The font sizes that exist (R165). -/
def supportedSize (size : Nat) : Bool := size == 12 || size == 16 || size == 24

/-- `ceil(size / 8)`, the bytes of one glyph column (R165). -/
def bytesPerColumn (size : Nat) : Nat := (size + 7) / 8

/-- `L(size) = ceil(size / 8) * (size / 2)` (R165). -/
def glyphLength (size : Nat) : Nat := bytesPerColumn size * (size / 2)

/-- The printable codes 0x20..0x7E (R166, R169). -/
def printable (code : Nat) : Bool := 0x20 ≤ code && code ≤ 0x7E

/-- The pixel for a glyph bit: as it is with mode = 1, its complement otherwise (R166, R167). -/
def modeBit (mode : Nat) (bit : Bool) : Bool := if mode = 1 then bit else !bit

/-- The inner loop of R166 over the bits `t1` of one glyph byte, from the cursor (cx, cy): the calls, and the cursor
after them. It breaks off when a column of `size` rows from `y` on is full. -/
def drawBits (g : Byte) (mode y size : Nat) : List Nat → Nat → Nat → List PixelCall × Nat × Nat
  | [], cx, cy => ([], cx, cy)
  | t1 :: rest, cx, cy =>
    let call : PixelCall := ⟨cx, cy, modeBit mode (g.getLsbD (7 - t1))⟩
    if cy + 1 - y = size then ([call], cx + 1, y)
    else
      let r := drawBits g mode y size rest cx (cy + 1)
      (call :: r.1, r.2)

/-- The outer loop of R166 over the bytes of a glyph. -/
def drawBytes (mode y size : Nat) : List Byte → Nat → Nat → List PixelCall
  | [], _, _ => []
  | g :: gs, cx, cy =>
    let r := drawBits g mode y size (List.range 8) cx cy
    r.1 ++ drawBytes mode y size gs r.2.1 r.2.2

/-- The bytes of GLYPH(index, size), in order (R165). -/
def glyphBytes (P : HostParams) (index size : Nat) : List Byte :=
  (List.range (glyphLength size)).map (P.glyph index size)

/-- The calls of SETPX_host that `draw_char` makes (R166, R169). -/
def charCalls (P : HostParams) (x y code size mode : Nat) : List PixelCall :=
  if supportedSize size && printable code then
    drawBytes mode y size (glyphBytes P (code - 0x20) size) x y
  else []

/-- `draw_char` (R166). -/
def drawChar (P : HostParams) (x y code size mode : Nat) : List Instr :=
  (charCalls P x y code size mode).filterMap PixelCall.issue

/-- The digit at place `t` of `n` (R170). -/
def digitAt (value n t : Nat) : Nat := value / 10 ^ (n - 1 - t) % 10

/-- The codes that `draw_number` draws, from place `t` on with `left` places to go, with R170's `enshow`. -/
def numberCodes (value n : Nat) : (left t : Nat) → (enshow : Bool) → List Nat
  | 0, _, _ => []
  | left + 1, t, enshow =>
    let d := digitAt value n t
    if !enshow && t < n - 1 && d == 0 then 0x20 :: numberCodes value n left (t + 1) false
    else (0x30 + d) :: numberCodes value n left (t + 1) (enshow || t < n - 1)

/-- The codes of the `n` cells of a number, first place first (R170). -/
def numberText (value n : Nat) : List Nat := numberCodes value n n 0 false

/-- `draw_number` (R170): cell t at x + (size / 2) * t. -/
def drawNumber (P : HostParams) (x y value n size : Nat) : List Instr :=
  (numberText value n).zipIdx.flatMap fun e => drawChar P (x + size / 2 * e.2) y e.1 size 1

/-- One thing `draw_string` does (R172). -/
inductive StringStep where
  /-- The overflow clear: the block's CLEAR, with no FLUSH (R175). -/
  | overflowClear
  /-- A glyph cell drawn at (cx, cy). -/
  | char (cx cy code : Nat)
  deriving DecidableEq, Repr

/-- The walk of R172 over the text, from the cursor (cx, cy). The comparisons are on integers. -/
def stringSteps (size : Nat) : List Nat → Nat → Nat → List StringStep
  | [], _, _ => []
  | ch :: text, cx, cy =>
    if printable ch then
      let wrap : Bool := (cx : Int) > 128 - ((size / 2 : Nat) : Int)
      let cx1 := if wrap then 0 else cx
      let cy1 := if wrap then cy + size else cy
      if (cy1 : Int) > 64 - (size : Int) then
        .overflowClear :: .char 0 0 ch :: stringSteps size text (size / 2) 0
      else .char cx1 cy1 ch :: stringSteps size text (cx1 + size / 2) cy1
    else []

/-- The commands of one step of `draw_string`: opaque, normal mode (R172). -/
def StringStep.issue (P : HostParams) (size : Nat) : StringStep → List Instr
  | .overflowClear => [.clear]
  | .char cx cy code => drawChar P cx cy code size 1

/-- `draw_string` (R172). -/
def drawString (P : HostParams) (x y : Nat) (text : List Nat) (size : Nat) : List Instr :=
  (stringSteps size text x y).flatMap (StringStep.issue P size)

/-- Command bytes sent one by one with CMD (R180, R183). -/
def sendBytes (bs : List Byte) : List Instr := bs.map Instr.cmd

/-- `display_on` (R183). -/
def displayOn (P : HostParams) : List Instr := sendBytes P.displayOnSeq

/-- `display_off` (R183). -/
def displayOff (P : HostParams) : List Instr := sendBytes P.displayOffSeq

/-- What the host does, some of it past the block (R180, R223). -/
inductive HostAction where
  /-- The block's reset input (R223, step 1). -/
  | resetBlock
  /-- The controller's reset line, at transport or GPIO level: it does not pass through the block (R180). -/
  | controllerResetLow
  | controllerResetHigh
  /-- `delay_milliseconds(n)` (R206). -/
  | delay (ms : Nat)
  /-- A command presented until the block accepts it. -/
  | issue (i : Instr)
  deriving DecidableEq, Repr

/-- The commands of `initialize` (R180, steps 2 and 3). -/
def initCommands (P : HostParams) : List Instr := sendBytes P.initSequence ++ [.clear, .flush]

/-- `initialize` (R180). -/
def initDisplay (P : HostParams) : List HostAction :=
  [.controllerResetLow, .delay P.resetSettleMs, .controllerResetHigh] ++ (initCommands P).map HostAction.issue

/-- The order of boot (R223). -/
def boot (P : HostParams) : List HostAction := .resetBlock :: initDisplay P

end Sys2Proof.Software
end

