-- ==== Sys2Proof/Machine/HostRun.lean ====
section
/-! DEFINITION. Host and block together: a list of commands run to completion on a transport that takes every byte.
This is the synchronous reading of SRC, "all operations execute to completion before returning" (R29, R61, R142). The
ready transport is the model's choice of an environment (log 16). -/

namespace Sys2Proof.Machine

open Host (Outcome)

/-- XFER steps until the block is idle, at most `n` of them. -/
def State.finish : Nat → State → State
  | 0, s => s
  | n + 1, s => if s.busy then State.finish n s.xfer else s

/-- One command accepted and, if it is a FLUSH or a CMD, all its bytes sent (R142). -/
def issueAndWait (i : Instr) (s : State) : Outcome State Fault Refusal :=
  match exec i s with
  | .next t => .next (t.finish Config.frameBytes)
  | .fault r => .fault r
  | .refused r => .refused r

/-- Commands one after the other, each complete before the next one is accepted (R61). -/
def issueAll : List Instr → State → Outcome State Fault Refusal
  | [], s => .next s
  | i :: is, s =>
    match issueAndWait i s with
    | .next t => issueAll is t
    | .fault r => .fault r
    | .refused r => .refused r

/-- The block steps a command takes on a transport that is always ready: its ACCEPT, and an XFER for every byte it
sends (R142, R230). -/
def commandSteps : Instr → Nat
  | .nop => 1
  | .setpx _ _ _ => 1
  | .getpx _ _ => 1
  | .clear => 1
  | .flush => 1 + Config.frameBytes
  | .cmd _ => 2
  | .rdbyte _ _ => 1
  | .clrstat => 1
  | .reserved _ => 1

/-- The host's actions that the block can see: its commands and its reset. The controller's reset line and the delay
pass it by (R180, R207). -/
def runActions : List Software.HostAction → State → Outcome State Fault Refusal
  | [], s => .next s
  | a :: rest, s =>
    match a with
    | .resetBlock => runActions rest s.resetBlock
    | .controllerResetLow => runActions rest s
    | .controllerResetHigh => runActions rest s
    | .delay _ => runActions rest s
    | .issue i =>
      match issueAndWait i s with
      | .next t => runActions rest t
      | .fault r => .fault r
      | .refused r => .refused r

end Sys2Proof.Machine
end

