-- ==== Sys2Proof/Safety.lean ====
section
/-! DEFINITION. The terms in which claims about PFB-FC are stated: pixels, the frame of a flush, the invariants, the wires
over time, and which states can be reached. -/

namespace Sys2Proof.Machine

/-- `Pixel(x, y) = FB[y / 8][x][y % 8]`, for x < 128 and y < 64 (R21). -/
def Memory.pixel (m : Memory) (x y : Nat) : Bool :=
  (m.read (BitVec.ofNat 3 (y / 8)) (BitVec.ofNat 7 x)).getLsbD (y % 8)

/-- The n-th entry of the frame of a framebuffer, n = 0..1047 (R133). -/
def frameEntry (F : Memory) (n : Nat) : TraceEntry :=
  let p := n / 131
  let r := n % 131
  if r = 0 then ⟨BitVec.ofNat 8 (0xB0 + p), .command⟩
  else if r = 1 then ⟨0x00, .command⟩
  else if r = 2 then ⟨0x10, .command⟩
  else ⟨F.read (BitVec.ofNat 3 p) (BitVec.ofNat 7 (r - 3)), .data⟩

/-- Frame(F): the 1048 entries one flush sends (R14, R133). -/
def frame (F : Memory) : List TraceEntry := (List.range 1048).map (frameEntry F)

/-- How many bytes of the frame have been sent, in a state of the page walk (R141). -/
def State.walkPosition (s : State) : Option Nat :=
  match s.phase with
  | .idle => none
  | .pgsel => some (131 * s.page.toNat)
  | .collo => some (131 * s.page.toNat + 1)
  | .colhi => some (131 * s.page.toNat + 2)
  | .data => some (131 * s.page.toNat + 3 + s.col.toNat)
  | .cmdout => none

/-- The FSM invariants of R26, in its order. -/
structure State.FsmInv (s : State) : Prop where
  idle_at_origin : s.phase = .idle → s.page = 0 ∧ s.col = 0
  framing_at_column_zero : s.phase = .pgsel ∨ s.phase = .collo ∨ s.phase = .colhi → s.col = 0
  cmdout_at_origin : s.phase = .cmdout → s.page = 0 ∧ s.col = 0
  no_unnamed_phase : s.phase.code ≠ 6 ∧ s.phase.code ≠ 7

/-- The input wires k steps on, from the levels now and those to come (log 5). -/
def wiresFrom : Nat → PortInputs → List PortInputs → PortInputs
  | 0, p, _ => p
  | _ + 1, p, [] => p
  | k + 1, _, q :: qs => wiresFrom k q qs

/-- The input wires in the k-th step from here. -/
def State.wires (s : State) (k : Nat) : PortInputs := wiresFrom k s.ports s.upcoming

/-- In how many of the next n steps the transport is ready. -/
def State.readySteps (s : State) (n : Nat) : Nat := (List.range n).countP fun k => (s.wires k).txReady

/-- In none of the next n steps is the block reset. -/
def State.NoResetFor (s : State) (n : Nat) : Prop := ∀ k, k < n → (s.wires k).rst = false

/-- From here on no reset comes, the host presents what it has, and the transport takes every byte. -/
def State.Cooperative (s : State) : Prop := s.ports = ⟨false, true, true⟩ ∧ s.upcoming = []

/-- The command an ACCEPT step of this state executes, if its step is one (R131). -/
def State.accepted (s : State) : Option Instr :=
  match s.action with
  | .accept w => some (decode w)
  | _ => none

/-- The machine after n steps. -/
def State.run (s : State) (n : Nat) : Host.Outcome State Fault Refusal := Host.Core.run Sys2Proof.core n s

/-- The states a run can be in: the power-on state with any host, any transport and any resets to come, and what
steps lead to from there. -/
inductive Reachable : State → Prop where
  | powerOn (words : List Word) (now : PortInputs) (later : List PortInputs) :
      Reachable { State.reset with cmdQueue := words, ports := now, upcoming := later }
  | step {s t : State} : Reachable s → Machine.step s = .next t → Reachable t

end Sys2Proof.Machine
end

