-- ==== Sys2Proof/Certificates/Slice0/Obligations.lean ====
section
/-! DEFINITION. The statements for the provers. Each docstring names the rule of spec/ it formalises. -/

open Sys2Proof Sys2Proof.Machine

/-! ### Encoding -/

/-- R80: the eleven examples: the line of assembly, the command it stands for, and its word, in both directions. -/
def Obligations.ExampleWordsAreTheirCommands : Prop :=
  ∀ e ∈ ([
      (['N', 'O', 'P'],
        .nop, 0x00000000),
      (['S', 'E', 'T', 'P', 'X', ' ', '5', ',', ' ', '1', '0', ',', ' ', '1'],
        .setpx 5 10 true, 0x10010A05),
      (['S', 'E', 'T', 'P', 'X', ' ', '5', ',', ' ', '1', '0', ',', ' ', '0'],
        .setpx 5 10 false, 0x10000A05),
      (['S', 'E', 'T', 'P', 'X', ' ', '1', '2', '7', ',', ' ', '6', '3', ',', ' ', '1'],
        .setpx 127 63 true, 0x10013F7F),
      (['S', 'E', 'T', 'P', 'X', ' ', '1', '2', '8', ',', ' ', '0', ',', ' ', '1'],
        .setpx 128 0 true, 0x10010080),
      (['G', 'E', 'T', 'P', 'X', ' ', '5', ',', ' ', '1', '0'],
        .getpx 5 10, 0x20000A05),
      (['C', 'L', 'E', 'A', 'R'],
        .clear, 0x30000000),
      (['F', 'L', 'U', 'S', 'H'],
        .flush, 0x40000000),
      (['C', 'M', 'D', ' ', '0', 'x', 'B', '3'],
        .cmd 0xB3, 0x500000B3),
      (['R', 'D', 'B', 'Y', 'T', 'E', ' ', '5', ',', ' ', '1'],
        .rdbyte 5 1, 0x60000105),
      (['C', 'L', 'R', 'S', 'T', 'A', 'T'],
        .clrstat, 0x70000000)]
      : List (List Char × Instr × Word)),
    Assembler.assemble e.1 = some e.2.1 ∧ encode e.2.1 = e.2.2 ∧ decode e.2.2 = e.2.1

/-- R72, R77: the decoder on every word, its fields read as numbers; the encoder on every command; and each undoes the
other. The last line of `encode`, for RESERVED, is the model's (log 8) and is no part of this statement but in so far
as decoding gives the command back. -/
def Obligations.DecodeAndEncodeAreInverse : Prop :=
  (∀ w : Word, decode w =
    match w.toNat / 2 ^ 28 with
    | 0 => .nop
    | 1 => .setpx (BitVec.ofNat 8 (w.toNat % 256)) (BitVec.ofNat 8 (w.toNat / 256 % 256))
        (decide (w.toNat / 65536 % 2 = 1))
    | 2 => .getpx (BitVec.ofNat 8 (w.toNat % 256)) (BitVec.ofNat 8 (w.toNat / 256 % 256))
    | 3 => .clear
    | 4 => .flush
    | 5 => .cmd (BitVec.ofNat 8 (w.toNat % 256))
    | 6 => .rdbyte (BitVec.ofNat 8 (w.toNat % 256)) (BitVec.ofNat 8 (w.toNat / 256 % 256))
    | 7 => .clrstat
    | op => .reserved (BitVec.ofNat 4 op)) ∧
  (encode .nop = 0x00000000 ∧
    (∀ (x y : Byte) (on : Bool), (encode (.setpx x y on)).toNat =
      0x10000000 + on.toNat * 65536 + y.toNat * 256 + x.toNat) ∧
    (∀ x y : Byte, (encode (.getpx x y)).toNat = 0x20000000 + y.toNat * 256 + x.toNat) ∧
    encode .clear = 0x30000000 ∧ encode .flush = 0x40000000 ∧
    (∀ b : Byte, (encode (.cmd b)).toNat = 0x50000000 + b.toNat) ∧
    (∀ c p : Byte, (encode (.rdbyte c p)).toNat = 0x60000000 + p.toNat * 256 + c.toNat) ∧
    encode .clrstat = 0x70000000) ∧
  (∀ i : Instr, i.wellFormed = true → decode (encode i) = i) ∧
  (∀ w : Word, w.toNat < 2 ^ 31 → w &&& ~~~usedBits (opField w) = 0 → encode (decode w) = w)

/-- R75: bits 27:17 and the fields an opcode does not read have no effect, and `encode` leaves them 0. -/
def Obligations.IgnoredBitsHaveNoEffect : Prop :=
  (∀ op, usedBits op &&& 0x0FFE0000 = 0) ∧
  (∀ (w w' : Word), opField w = opField w' → w &&& usedBits (opField w) = w' &&& usedBits (opField w) →
    decode w = decode w' ∧ ∀ s, exec (decode w) s = exec (decode w') s) ∧
  (∀ i : Instr, encode i &&& ~~~usedBits i.opcode = 0)

/-- R74: each row's `(w & mask) = match`, and every word belongs to exactly one row. -/
def Obligations.EveryWordHasOneOpcodeRow : Prop :=
  ∀ w : Word,
    (w &&& 0xF0000000 = 0x00000000 ↔ decode w = .nop) ∧
    (w &&& 0xF0000000 = 0x10000000 ↔ ∃ x y on, decode w = .setpx x y on) ∧
    (w &&& 0xF0000000 = 0x20000000 ↔ ∃ x y, decode w = .getpx x y) ∧
    (w &&& 0xF0000000 = 0x30000000 ↔ decode w = .clear) ∧
    (w &&& 0xF0000000 = 0x40000000 ↔ decode w = .flush) ∧
    (w &&& 0xF0000000 = 0x50000000 ↔ ∃ b, decode w = .cmd b) ∧
    (w &&& 0xF0000000 = 0x60000000 ↔ ∃ c p, decode w = .rdbyte c p) ∧
    (w &&& 0xF0000000 = 0x70000000 ↔ decode w = .clrstat) ∧
    (w &&& 0x80000000 = 0x80000000 ↔ ∃ op, decode w = .reserved op) ∧
    (opcodeTable.filter fun r => r.fits w).map OpcodeRow.mnemonic = [(decode w).mnemonic]

/-! ### The step, and which agent moves -/

/-- R131 (ACCEPT): when the word at an idle block's command port decodes to i, the step is exec of i, with the host's
word taken and the wires moved on. -/
def Obligations.StepRunsThePresentedCommand : Prop :=
  ∀ (s : State) (w : Word) (rest : List Word) (i : Instr),
    s.ports.rst = false → s.ports.cmdValid = true → s.phase = .idle → s.cmdQueue = w :: rest →
    decode w = i →
    step s = exec i { s with
      cmdQueue := rest, ports := s.upcoming.headD s.ports, upcoming := s.upcoming.tail }

/-- The word put at the fetch is the one the next step decodes and runs (log 11). -/
def Obligations.FetchedWordIsRunNext : Prop :=
  ∀ (s : State) (w : Word), decodeTableWord 32 w.toNat = some (decode w) ∧
    ∃ u : State, step (s.withFetchWord 32 w.toNat) = exec (decode w) u ∧
      u.phase = .idle ∧ u.cmdQueue = s.cmdQueue ∧ u.fb = s.fb ∧ u.trace = s.trace ∧
      u.ill = s.ill ∧ u.oob = s.oob ∧ u.rdata = s.rdata ∧ u.cmdbuf = s.cmdbuf

/-- R130: ACCEPT only when idle, XFER only when not, never both, and reset in any state, before either (R202). -/
def Obligations.AcceptAndXferNeverTogether : Prop :=
  ∀ s : State,
    (s.acceptEnabled = true → s.phase = .idle) ∧ (s.xferEnabled = true → s.phase ≠ .idle) ∧
    ¬(s.acceptEnabled = true ∧ s.xferEnabled = true) ∧
    (s.ports.rst = true → step s = .next s.resetBlock.advancePorts)

/-- R131: a word is accepted exactly when it is presented to an idle block; its ACCEPT step does the decoded command and
takes the word; where PHASE stands after the step; a word presented to a busy block is held: nothing of it happens and
the host's words stay as they are; and the last XFER of a FLUSH or a CMD lifts the hold. -/
def Obligations.WordIsAcceptedOnlyWhenIdle : Prop :=
  (∀ (s : State) (i : Instr), s.ports.rst = false →
    (s.accepted = some i ↔
      s.phase = .idle ∧ s.ports.cmdValid = true ∧ ∃ w, s.cmdQueue.head? = some w ∧ decode w = i)) ∧
  (∀ (s t : State) (i : Instr), s.accepted = some i → step s = .next t →
    t.phase = (match i with | .flush => .pgsel | .cmd _ => .cmdout | _ => .idle) ∧ t.cmdQueue = s.cmdQueue.tail ∧
      exec i { s with
        cmdQueue := s.cmdQueue.tail, ports := s.upcoming.headD s.ports, upcoming := s.upcoming.tail } = .next t) ∧
  (∀ s : State, s.ports.rst = false → s.phase ≠ .idle →
    ∃ t, step s = .next t ∧ t.cmdQueue = s.cmdQueue ∧ t.fb = s.fb ∧ t.rdata = s.rdata ∧ t.cmdbuf = s.cmdbuf ∧
      t.ill = s.ill ∧ t.oob = s.oob) ∧
  (∀ s : State, s.ports.rst = false → s.ports.txReady = true →
    s.phase = .cmdout ∧ s.page = 0 ∧ s.col = 0 ∨ s.phase = .data ∧ s.page = 7 ∧ s.col = 127 →
    ∃ t, step s = .next t ∧ t.phase = .idle ∧ t.cmdQueue = s.cmdQueue)

/-- The host's words are taken one at a time and in order, by an ACCEPT and by nothing else, a reset included
(R131, R221). -/
def Obligations.WordsAreNeverLostOrReordered : Prop :=
  ∀ s t : State, step s = .next t →
    t.cmdQueue = (if s.accepted.isSome then s.cmdQueue.tail else s.cmdQueue) ∧
    (s.accepted.isSome = true → s.cmdQueue ≠ [])

/-- Every step from every state answers a next state: no exception, trap, fault or abort state (R200). -/
def Obligations.NoStepEverStops : Prop := ∀ s : State, ∃ t, step s = .next t

/-! ### Reset -/

/-- R34: the state after power-on. FB is FB_RESET, whatever that is; `Config.fbReset` has no value (log 3). -/
def Obligations.PowerOnValues : Prop :=
  State.reset.phase = .idle ∧ State.reset.page = 0 ∧ State.reset.col = 0 ∧ State.reset.cmdbuf = 0x00 ∧
  State.reset.ill = false ∧ State.reset.oob = false ∧ State.reset.busy = false ∧ State.reset.status = 0 ∧
  State.reset.rdata = 0x00 ∧ State.reset.txValid = false ∧
  ∀ p c, State.reset.fb.read p c = Config.fbReset 0 p c

/-- R221: the reset step from any state. FB is FB_RESET, whatever that is; `Config.fbReset` has no value (log 3). -/
def Obligations.ResetStepFromAnyState : Prop :=
  ∀ s : State, s.ports.rst = true → ∃ t, step s = .next t ∧
    t.phase = .idle ∧ t.page = 0 ∧ t.col = 0 ∧ t.cmdbuf = 0x00 ∧ t.ill = false ∧ t.oob = false ∧ t.rdata = 0x00 ∧
    (∀ p c, t.fb.read p c = Config.fbReset s.resetIndex p c) ∧
    t.trace = s.trace ∧ t.cmdQueue = s.cmdQueue

/-- R222: a reset inside a FLUSH or a CMD leaves on the trace the bytes already taken and sends no more, and the next
FLUSH sends its whole frame; and nothing but reset cuts an operation short: a busy block is idle again only by a reset
or by the XFER of the last byte. -/
def Obligations.ResetCutsAFlushShort : Prop :=
  (∀ (s : State) (n : Nat), s.phase = .pgsel → s.page = 0 → s.col = 0 → s.NoResetFor n → (s.wires n).rst = true →
    s.readySteps n < 1048 →
    ∃ t u, s.run (n + 1) = .next t ∧ t.phase = .idle ∧
      t.trace = s.trace ++ (frame s.fb).take (s.readySteps n) ∧
      issueAndWait .flush t = .next u ∧ u.trace = t.trace ++ frame t.fb) ∧
  (∀ (s : State) (n : Nat), s.phase = .cmdout → s.NoResetFor n → (s.wires n).rst = true → s.readySteps n = 0 →
    ∃ t, s.run (n + 1) = .next t ∧ t.phase = .idle ∧ t.trace = s.trace) ∧
  (∀ s t : State, s.phase ≠ .idle → step s = .next t → t.phase = .idle →
    s.ports.rst = true ∨
      s.ports.txReady = true ∧ (s.phase = .cmdout ∨ s.phase = .data ∧ s.page = 7 ∧ s.col = 127))

/-! ### Invariants -/

/-- R26: the FSM invariants. Every step keeps them, and they hold in every state a run can be in. -/
def Obligations.FsmInvariantHolds : Prop :=
  (∀ s t : State, s.FsmInv → step s = .next t → t.FsmInv) ∧ ∀ s : State, Reachable s → s.FsmInv

/-- R26, at power-on. -/
def Obligations.PowerOnMeetsFsmInvariant : Prop := State.reset.FsmInv

/-- The framebuffer keeps its canonical form (log 2): equal framebuffers stay equal data. -/
def Obligations.FramebufferStaysCanonical : Prop :=
  ∀ s t : State, s.fb.wf = true → step s = .next t → t.fb.wf = true

/-- The framebuffer of the power-on state has its canonical form, whatever FB_RESET is (log 2, log 3). -/
def Obligations.PowerOnFramebufferIsCanonical : Prop := State.reset.fb.wf = true

/-! ### Whole-machine rules: what changes each register -/

/-- R30: what a step makes of ILL and OOB, over all steps. -/
def Obligations.StickyFlagsChangeOnlyAsTold : Prop :=
  ∀ s t : State, step s = .next t →
    t.ill = (if s.ports.rst then false else
      match s.accepted with
      | some (.reserved _) => true
      | some .clrstat => false
      | _ => s.ill) ∧
    t.oob = (if s.ports.rst then false else
      match s.accepted with
      | some (.setpx x y _) => s.oob || !(decide (x.toNat < 128) && decide (y.toNat < 64))
      | some (.getpx x y) => s.oob || !(decide (x.toNat < 128) && decide (y.toNat < 64))
      | some (.rdbyte c p) => s.oob || !(decide (c.toNat < 128) && decide (p.toNat < 8))
      | some .clrstat => false
      | _ => s.oob)

/-- R31: what a step makes of RDATA, over all steps. -/
def Obligations.RdataChangesOnlyAsTold : Prop :=
  ∀ s t : State, step s = .next t →
    t.rdata = (if s.ports.rst then 0x00 else
      match s.accepted with
      | some (.getpx x y) =>
        if x.toNat < 128 ∧ y.toNat < 64 then (if s.fb.pixel x.toNat y.toNat then 0x01 else 0x00) else 0x00
      | some (.rdbyte c p) =>
        if c.toNat < 128 ∧ p.toNat < 8 then s.fb.read (BitVec.ofNat 3 p.toNat) (BitVec.ofNat 7 c.toNat) else 0x00
      | _ => s.rdata)

/-- What a step makes of every byte of FB, over all steps (R22, R57, R58); and that every reset has an array of its own,
which is the model's form of FB_RESET (log 3). -/
def Obligations.FramebufferChangesOnlyAsTold : Prop :=
  ∀ s t : State, step s = .next t →
    t.resetIndex = (if s.ports.rst then s.resetIndex + 1 else s.resetIndex) ∧ ∀ (p : Page) (c : Column),
    t.fb.read p c = (if s.ports.rst then Config.fbReset s.resetIndex p c else
      match s.accepted with
      | some .clear => 0x00
      | some (.setpx x y on) =>
        if x.toNat = c.toNat ∧ y.toNat / 8 = p.toNat then
          (if on then s.fb.read p c ||| 1#8 <<< (y.toNat % 8) else s.fb.read p c &&& ~~~(1#8 <<< (y.toNat % 8)))
        else s.fb.read p c
      | _ => s.fb.read p c)

/-- The trace is a history: a step adds the byte offered, in an XFER, or adds nothing (R12, R140, R221). -/
def Obligations.TraceOnlyGrowsByXfer : Prop :=
  ∀ s t : State, step s = .next t →
    t.trace = (if s.ports.rst = false ∧ s.phase ≠ .idle ∧ s.ports.txReady = true then
      s.trace ++ [⟨s.txByte, if s.txDc then .data else .command⟩] else s.trace)

/-- R27: outside CMDOUT the value of CMDBUF has no effect on anything, not even on the byte that a CMD sends from there,
the host cannot read it, and inside CMDOUT it is the byte offered. -/
def Obligations.CmdbufIsUnseenOutsideCmdout : Prop :=
  (∀ (s : State) (b : Byte), s.phase ≠ .cmdout → ∃ t b', step s = .next t ∧
    step { s with cmdbuf := b } = .next { t with cmdbuf := b' } ∧ (t.phase = .cmdout → b' = t.cmdbuf) ∧
    ({ s with cmdbuf := b } : State).offer = s.offer) ∧
  (∀ (s : State) (b : Byte), ({ s with cmdbuf := b } : State).status = s.status ∧
    ({ s with cmdbuf := b } : State).rdata = s.rdata) ∧
  (∀ s : State, s.phase = .cmdout → s.offer = some ⟨s.cmdbuf, .command⟩)

/-- ILL and OOB change no operation's effect: two states that differ in them alone step to states that differ in them
alone (R28). -/
def Obligations.FlagsSteerNothing : Prop :=
  ∀ (s : State) (i o : Bool), ∃ t i' o', step s = .next t ∧
    step { s with ill := i, oob := o } = .next { t with ill := i', oob := o' }

/-! ### The status word and the transport port -/

/-- R144, with the layout of STATUS it reads by: every bit of the word, and the spec's example. -/
def Obligations.StatusReadsTheFsm : Prop :=
  (∀ s : State,
    s.status.getLsbD 0 = decide (s.phase ≠ .idle) ∧ s.status.getLsbD 1 = s.ill ∧ s.status.getLsbD 2 = s.oob ∧
    s.status.getLsbD 3 = false ∧
    (s.status.extractLsb' 4 3).toNat =
      (match s.phase with | .idle => 0 | .pgsel => 1 | .collo => 2 | .colhi => 3 | .data => 4 | .cmdout => 5) ∧
    s.status.getLsbD 7 = false ∧ s.status.extractLsb' 8 3 = s.page ∧ s.status.extractLsb' 11 5 = 0 ∧
    s.status.extractLsb' 16 7 = s.col ∧ s.status.extractLsb' 23 9 = 0) ∧
  (∀ s : State, s.phase = .data → s.page = 2 → s.col = 5 → s.ill = false → s.oob = false → s.status = 0x00050241)

/-- R32: the table of the transport port, and that nothing else goes into it. -/
def Obligations.TransportPortFollowsTheTable : Prop :=
  (∀ s : State, s.phase = .idle → s.txValid = false) ∧
  (∀ s : State, s.phase = .pgsel → s.txValid = true ∧ s.txByte.toNat = 0xB0 + s.page.toNat ∧
    s.txByte = 0xB0#8 ||| s.page.setWidth 8 ∧ s.txDc = false) ∧
  (∀ s : State, s.phase = .collo → s.txValid = true ∧ s.txByte = 0x00 ∧ s.txDc = false) ∧
  (∀ s : State, s.phase = .colhi → s.txValid = true ∧ s.txByte = 0x10 ∧ s.txDc = false) ∧
  (∀ s : State, s.phase = .data → s.txValid = true ∧ s.txByte = s.fb.read s.page s.col ∧ s.txDc = true) ∧
  (∀ s : State, s.phase = .cmdout → s.txValid = true ∧ s.txByte = s.cmdbuf ∧ s.txDc = false) ∧
  (∀ s t : State, s.phase = t.phase → s.page = t.page → s.col = t.col → s.cmdbuf = t.cmdbuf → s.fb = t.fb →
    s.txValid = t.txValid ∧ s.txByte = t.txByte ∧ s.txDc = t.txDc)

/-- An XFER happens iff the block is busy and the transport ready; then the byte offered goes onto the trace (R140). The
last clause is the model's waiting step, a DESIGN CHOICE (log 6): a busy block whose transport is not ready stays as it
is, and the input wires alone go on to their next levels (log 5). -/
def Obligations.XferNeedsAReadyTransport : Prop :=
  (∀ s : State, s.xferEnabled = true ↔ s.phase ≠ .idle ∧ s.ports.txReady = true) ∧
  (∀ s : State, s.ports.rst = false → s.xferEnabled = true → ∃ t, step s = .next t ∧
    t.trace = s.trace ++ [⟨s.txByte, if s.txDc then .data else .command⟩] ∧
    t.phase = s.nextPosition.phase ∧ t.page = s.nextPosition.page ∧ t.col = s.nextPosition.col) ∧
  (∀ s : State, s.ports.rst = false → s.phase ≠ .idle → s.ports.txReady = false →
    step s = .next { s with ports := s.upcoming.headD s.ports, upcoming := s.upcoming.tail })

/-- R141: the rows of the table, and that there are no other moves of the FSM but by ACCEPT of FLUSH or CMD and reset. -/
def Obligations.WalkMovesByTheTable : Prop :=
  (∀ s : State, s.ports.rst = false → s.ports.txReady = true → s.phase ≠ .idle → ∃ t, step s = .next t ∧
    (s.phase = .pgsel → s.col = 0 → t.phase = .collo ∧ t.page = s.page ∧ t.col = 0 ∧
      t.trace = s.trace ++ [⟨0xB0#8 + s.page.setWidth 8, .command⟩]) ∧
    (s.phase = .collo → s.col = 0 → t.phase = .colhi ∧ t.page = s.page ∧ t.col = 0 ∧
      t.trace = s.trace ++ [⟨0x00, .command⟩]) ∧
    (s.phase = .colhi → s.col = 0 → t.phase = .data ∧ t.page = s.page ∧ t.col = 0 ∧
      t.trace = s.trace ++ [⟨0x10, .command⟩]) ∧
    (s.phase = .data → s.col.toNat < 127 → t.phase = .data ∧ t.page = s.page ∧ t.col.toNat = s.col.toNat + 1 ∧
      t.trace = s.trace ++ [⟨s.fb.read s.page s.col, .data⟩]) ∧
    (s.phase = .data → s.col = 127 → s.page.toNat < 7 → t.phase = .pgsel ∧ t.page.toNat = s.page.toNat + 1 ∧
      t.col = 0 ∧ t.trace = s.trace ++ [⟨s.fb.read s.page 127, .data⟩]) ∧
    (s.phase = .data → s.col = 127 → s.page = 7 → t.phase = .idle ∧ t.page = 0 ∧ t.col = 0 ∧
      t.trace = s.trace ++ [⟨s.fb.read 7 127, .data⟩]) ∧
    (s.phase = .cmdout → s.page = 0 → s.col = 0 → t.phase = .idle ∧ t.page = 0 ∧ t.col = 0 ∧
      t.trace = s.trace ++ [⟨s.cmdbuf, .command⟩])) ∧
  (∀ s t : State, step s = .next t → (t.phase, t.page, t.col) ≠ (s.phase, s.page, s.col) →
    s.ports.rst = true ∨ s.accepted = some .flush ∨ (∃ b, s.accepted = some (.cmd b)) ∨
      s.phase ≠ .idle ∧ s.ports.txReady = true)

/-! ### The flush as a whole -/

/-- R133, R143: from the acceptance of a FLUSH, under any delays of the transport, the bytes sent so far are the first
entries of the frame of FB as it then stood; with the 1048th the block is idle again; and the frame's closed form. -/
def Obligations.FlushSendsItsFrame : Prop :=
  (∀ (s : State) (n : Nat), s.phase = .pgsel → s.page = 0 → s.col = 0 → s.NoResetFor n → s.readySteps n < 1048 →
    ∃ t, s.run n = .next t ∧ t.walkPosition = some (s.readySteps n) ∧
      t.trace = s.trace ++ (frame s.fb).take (s.readySteps n) ∧ t.fb = s.fb ∧ t.cmdQueue = s.cmdQueue) ∧
  (∀ (s : State) (n : Nat), s.phase = .pgsel → s.page = 0 → s.col = 0 → s.NoResetFor (n + 1) →
    s.readySteps n = 1047 → (s.wires n).txReady = true →
    ∃ t, s.run (n + 1) = .next t ∧ t.phase = .idle ∧ t.page = 0 ∧ t.col = 0 ∧
      t.trace = s.trace ++ frame s.fb ∧ t.fb = s.fb ∧ t.cmdQueue = s.cmdQueue) ∧
  (∀ F : Memory, (frame F).length = 1048 ∧
    (frame F).countP (fun e => e.kind == .command) = 24 ∧ (frame F).countP (fun e => e.kind == .data) = 1024 ∧
    ∀ n, n < 1048 → ∃ e, (frame F)[n]? = some e ∧
      (n % 131 = 0 → e.byte.toNat = 0xB0 + n / 131 ∧ e.kind = .command) ∧
      (n % 131 = 1 → e.byte = 0x00 ∧ e.kind = .command) ∧
      (n % 131 = 2 → e.byte = 0x10 ∧ e.kind = .command) ∧
      (3 ≤ n % 131 → e.byte = F.read (BitVec.ofNat 3 (n / 131)) (BitVec.ofNat 7 (n % 131 - 3)) ∧ e.kind = .data))

/-- R134: the laws of the frame. -/
def Obligations.FrameLaws : Prop :=
  (∀ F G : Memory, (∀ p c, F.read p c = G.read p c) → frame F = frame G) ∧
  (∀ s : State, ∃ t, issueAndWait .flush s = .next t ∧ t.fb = s.fb) ∧
  (∀ (F : Memory) (p : Page) (c : Column),
    (frame F)[131 * p.toNat + 3 + c.toNat]? = some ⟨F.read p c, .data⟩) ∧
  (∀ (F : Memory) (x y : Nat), x < 128 → y < 64 → ∃ e, (frame F)[131 * (y / 8) + 3 + x]? = some e ∧
    e.byte.getLsbD (y % 8) = F.pixel x y) ∧
  (∀ (F : Memory) (p : Page), ∃ e, (frame F)[131 * p.toNat]? = some e ∧
    e.byte.extractLsb' 0 3 = p ∧ e.byte.extractLsb' 3 5 = 0b10110)

/-- Host and block together: a host that presents a list of commands to an idle block whose transport is always ready
sees them done in order, each complete before the next, in exactly the block steps R230 counts (R61, R131, R142). The
always ready transport is the model's choice of an environment, a DESIGN CHOICE (log 16). -/
def Obligations.CommandStreamRunsInOrder : Prop :=
  ∀ (is : List Instr) (rest : List Word) (s : State),
    (∀ i ∈ is, i.wellFormed = true) → s.phase = .idle → s.Cooperative → s.cmdQueue = is.map encode ++ rest →
    ∃ t, issueAll is s = .next t ∧ s.run ((is.map commandSteps).sum) = .next { t with cmdQueue := rest }

/-! ### The commands -/

/-- R135. -/
def Obligations.NopChangesNothing : Prop :=
  encode .nop = 0x00000000 ∧ (∀ w : Word, w.toNat < 2 ^ 28 → decode w = .nop) ∧ ∀ s : State, exec .nop s = .next s

/-- R101: SETPX completes in every state, on all operands; which bit it sets or clears; and that it changes nothing
else. -/
def Obligations.SetpxWritesItsPixel : Prop :=
  ∀ (x y : Byte) (on : Bool) (s : State),
    encode (.setpx x y on) =
      0x10000000#32 ||| (if on then 0x00010000#32 else 0) ||| y.setWidth 32 <<< 8 ||| x.setWidth 32 ∧
    ∃ t, exec (.setpx x y on) s = .next t ∧
      if x.toNat < 128 ∧ y.toNat < 64 then
        t = { s with fb := t.fb } ∧ ∀ (p : Page) (c : Column), t.fb.read p c =
          if p.toNat = y.toNat / 8 ∧ c.toNat = x.toNat then
            (if on then s.fb.read p c ||| 1#8 <<< (y.toNat % 8) else s.fb.read p c &&& ~~~(1#8 <<< (y.toNat % 8)))
          else s.fb.read p c
      else t = { s with oob := true }

/-- R103: GETPX completes in every state, on all operands, with this state and no other change. -/
def Obligations.GetpxReadsItsPixel : Prop :=
  ∀ (x y : Byte) (s : State),
    encode (.getpx x y) = 0x20000000#32 ||| y.setWidth 32 <<< 8 ||| x.setWidth 32 ∧
    exec (.getpx x y) s = .next
      (if x.toNat < 128 ∧ y.toNat < 64 then
        { s with rdata := if (s.fb.read (BitVec.ofNat 3 (y.toNat / 8)) (BitVec.ofNat 7 x.toNat)).getLsbD (y.toNat % 8)
            then 0x01 else 0x00 }
      else { s with rdata := 0x00, oob := true })

/-- R105: RDBYTE completes in every state, on all operands, with this state and no other change. -/
def Obligations.RdbyteReadsItsByte : Prop :=
  ∀ (c p : Byte) (s : State),
    encode (.rdbyte c p) = 0x60000000#32 ||| p.setWidth 32 <<< 8 ||| c.setWidth 32 ∧
    exec (.rdbyte c p) s = .next
      (if c.toNat < 128 ∧ p.toNat < 8 then
        { s with rdata := s.fb.read (BitVec.ofNat 3 p.toNat) (BitVec.ofNat 7 c.toNat) }
      else { s with rdata := 0x00, oob := true })

/-- R107: CLEAR completes in every state, zeroes every page byte, changes nothing else, and is the only command that
changes more than one bit of FB: SETPX changes at most the bit of its in-range pixel, every other command none. -/
def Obligations.ClearZeroesEveryByte : Prop :=
  encode .clear = 0x30000000 ∧
  (∀ s : State, ∃ t, exec .clear s = .next t ∧ t = { s with fb := t.fb } ∧ (∀ p c, t.fb.read p c = 0x00) ∧
    exec .clear t = .next t) ∧
  (∀ (i : Instr) (s t : State), i ≠ .clear → (∀ x y on, i ≠ .setpx x y on) → exec i s = .next t → t.fb = s.fb) ∧
  (∀ (x y : Byte) (on : Bool) (s t : State), exec (.setpx x y on) s = .next t → ∀ (p : Page) (c : Column) (b : Nat),
    ¬(inRange x y = true ∧ p = pageOf y ∧ c = columnOf x ∧ b = bitOf y) →
      (t.fb.read p c).getLsbD b = (s.fb.read p c).getLsbD b)

/-- R132: the ACCEPT step of FLUSH, from every state; BUSY is 1 until the 1048th XFER, with FB, the flags and RDATA as
they were; a flush leaves everything but the trace as it was, two in a row send two identical frames, and CLEAR; FLUSH
sends the all-zero frame. -/
def Obligations.FlushStartsTheWalk : Prop :=
  encode .flush = 0x40000000 ∧
  (∀ s : State, exec .flush s = .next { s with phase := .pgsel, page := 0, col := 0 }) ∧
  (∀ (s : State) (n : Nat), s.phase = .pgsel → s.page = 0 → s.col = 0 → s.NoResetFor n → s.readySteps n < 1048 →
    ∃ t, s.run n = .next t ∧ t.busy = true ∧ t.fb = s.fb ∧ t.ill = s.ill ∧ t.oob = s.oob ∧ t.rdata = s.rdata) ∧
  (∀ s : State, issueAll [.flush] s = .next
    { s with phase := .idle, page := 0, col := 0, trace := s.trace ++ frame s.fb }) ∧
  (∀ s : State, issueAll [.flush, .flush] s = .next
    { s with phase := .idle, page := 0, col := 0, trace := s.trace ++ (frame s.fb ++ frame s.fb) }) ∧
  (∀ s : State, s.phase = .idle → ∃ t, issueAll [.clear, .flush] s = .next t ∧
    t.trace = s.trace ++ (List.range 8).flatMap fun p =>
      ⟨BitVec.ofNat 8 (0xB0 + p), .command⟩ :: ⟨0x00, .command⟩ :: ⟨0x10, .command⟩ ::
        List.replicate 128 (⟨0x00, .data⟩ : TraceEntry))

/-- R136: the ACCEPT step of CMD, from every state and for every byte, and its single XFER. -/
def Obligations.CmdSendsItsByte : Prop :=
  ∀ (b : Byte) (s : State),
    encode (.cmd b) = 0x50000000#32 ||| b.setWidth 32 ∧
    exec (.cmd b) s = .next { s with cmdbuf := b, phase := .cmdout, page := 0, col := 0 } ∧
    (∀ t, exec (.cmd b) s = .next t → t.busy = true ∧ t.status.extractLsb' 4 3 = 5) ∧
    (∀ t, exec (.cmd b) s = .next t → t.ports.rst = false → t.ports.txReady = true → ∃ u, step t = .next u ∧
      u.phase = .idle ∧ u.trace = s.trace ++ [⟨b, .command⟩] ∧ u.fb = s.fb)

/-- R139. -/
def Obligations.ClrstatClearsBothFlags : Prop :=
  encode .clrstat = 0x70000000 ∧ ∀ s : State, exec .clrstat s = .next { s with ill := false, oob := false }

/-- R138: every word with its top bit set is a reserved command, and a reserved command sets ILL and nothing else. -/
def Obligations.ReservedSetsIllOnly : Prop :=
  (∀ w : Word, w.getLsbD 31 = true → decode w = .reserved (w.extractLsb' 28 4)) ∧
  ∀ (op : BitVec 4) (s : State), 8 ≤ op.toNat → exec (.reserved op) s = .next { s with ill := true }

/-- R56: every X and Y is legal. Out of range SETPX is a no-op on FB, GETPX and RDBYTE return 0, and OOB is set. -/
def Obligations.OutOfRangeIsSilent : Prop :=
  ∀ (x y : Byte) (on : Bool) (s : State),
    (¬(x.toNat < 128 ∧ y.toNat < 64) → exec (.setpx x y on) s = .next { s with oob := true } ∧
      exec (.getpx x y) s = .next { s with rdata := 0x00, oob := true }) ∧
    (¬(x.toNat < 128 ∧ y.toNat < 8) → exec (.rdbyte x y) s = .next { s with rdata := 0x00, oob := true })

/-! ### Laws of the framebuffer commands -/

/-- R21: the column, page and bit of an in-range pixel, and that each triple is one pixel's. -/
def Obligations.PixelsAndTriplesAreOneToOne : Prop :=
  (∀ x y : Byte, inRange x y = true →
    (columnOf x).toNat = x.toNat ∧ (pageOf y).toNat = y.toNat / 8 ∧ bitOf y = y.toNat % 8) ∧
  (∀ (m : Memory) (x y : Byte), inRange x y = true →
    m.pixel x.toNat y.toNat = (m.read (pageOf y) (columnOf x)).getLsbD (bitOf y)) ∧
  (∀ (c : Column) (p : Page) (b : Nat), b < 8 →
    ∃! xy : Byte × Byte, inRange xy.1 xy.2 = true ∧ columnOf xy.1 = c ∧ pageOf xy.2 = p ∧ bitOf xy.2 = b)

/-- R102: the five laws of SETPX. -/
def Obligations.SetpxLaws : Prop :=
  (∀ (x y : Byte) (v : Bool) (s : State), x.toNat < 128 → y.toNat < 64 →
    ∃ t u, exec (.setpx x y v) s = .next t ∧ exec (.getpx x y) t = .next u ∧ u.rdata = if v then 0x01 else 0x00) ∧
  (∀ (x y : Byte) (v : Bool) (s t : State) (x' y' : Nat), exec (.setpx x y v) s = .next t → x' < 128 → y' < 64 →
    (x', y') ≠ (x.toNat, y.toNat) → t.fb.pixel x' y' = s.fb.pixel x' y') ∧
  (∀ (x y : Byte) (v : Bool) (s t : State), ¬(x.toNat < 128 ∧ y.toNat < 64) → exec (.setpx x y v) s = .next t →
    t.fb = s.fb) ∧
  (∀ (x y : Byte) (a b : Bool) (s : State), ∃ t u r, exec (.setpx x y a) s = .next t ∧
    exec (.setpx x y b) t = .next u ∧ exec (.setpx x y b) s = .next r ∧ ∀ p c, u.fb.read p c = r.fb.read p c) ∧
  (∀ (x y x' y' : Byte) (a b : Bool) (s : State), x.toNat < 128 → y.toNat < 64 → x'.toNat < 128 → y'.toNat < 64 →
    (x, y) ≠ (x', y') → ∃ t u t' u', exec (.setpx x y a) s = .next t ∧ exec (.setpx x' y' b) t = .next u ∧
      exec (.setpx x' y' b) s = .next t' ∧ exec (.setpx x y a) t' = .next u' ∧
      ∀ p c, u.fb.read p c = u'.fb.read p c)

/-- R104: the laws of GETPX. -/
def Obligations.GetpxLaws : Prop :=
  (∀ (x y : Byte) (s : State), ∃ t, exec (.getpx x y) s = .next t ∧ t.fb = s.fb) ∧
  (∀ (x y : Byte) (s : State), x.toNat < 128 → y.toNat < 64 → ∃ t, exec (.getpx x y) s = .next t ∧
    t.rdata = if s.fb.pixel x.toNat y.toNat then 0x01 else 0x00) ∧
  (∀ (x y : Byte) (s : State), ∃ t u, exec .clear s = .next t ∧ exec (.getpx x y) t = .next u ∧ u.rdata = 0x00)

/-- R106, R54: a byte read and the bit reads see one store, and RDBYTE gives the byte a FLUSH sends there. -/
def Obligations.RdbyteLaws : Prop :=
  (∀ (c p : Byte) (b : Nat) (s : State), c.toNat < 128 → p.toNat < 8 → b < 8 →
    ∃ t u, exec (.rdbyte c p) s = .next t ∧ exec (.getpx c (BitVec.ofNat 8 (8 * p.toNat + b))) s = .next u ∧
      u.rdata = if t.rdata.getLsbD b then 0x01 else 0x00) ∧
  (∀ (c p : Byte) (s : State), c.toNat < 128 → p.toNat < 8 → ∃ t u, exec (.rdbyte c p) s = .next t ∧
    issueAndWait .flush t = .next u ∧
    u.trace[t.trace.length + (131 * p.toNat + 3 + c.toNat)]? = some ⟨t.rdata, .data⟩)

/-- R108: after CLEAR every pixel reads off, in range or not, and a FLUSH sends no byte of data but 0x00. -/
def Obligations.ClearLaw : Prop :=
  ∀ s : State, ∃ t, exec .clear s = .next t ∧
    (∀ x y : Byte, ∃ u, exec (.getpx x y) t = .next u ∧ u.rdata = 0x00) ∧
    ∃ u, issueAndWait .flush t = .next u ∧ u.trace = t.trace ++ frame t.fb ∧
      ∀ e ∈ frame t.fb, e.kind = .data → e.byte = 0x00

/-- R59: which commands are idempotent, and on what. -/
def Obligations.IdempotentCommands : Prop :=
  (∀ (i : Instr) (s t : State), ((∃ x y, i = .getpx x y) ∨ ∃ c p, i = .rdbyte c p) → exec i s = .next t →
    t = { s with rdata := t.rdata, oob := t.oob } ∧ exec i t = .next t) ∧
  (∀ (x y : Byte) (on : Bool) (s : State), ∃ t u, exec (.setpx x y on) s = .next t ∧
    exec (.setpx x y on) t = .next u ∧ ∀ p c, u.fb.read p c = t.fb.read p c) ∧
  (∀ s : State, ∃ t, exec .clear s = .next t ∧ exec .clear t = .next t) ∧
  (∀ s : State, ∃ t, issueAndWait .flush s = .next t ∧ t.fb = s.fb ∧
    t.trace = s.trace ++ frame s.fb ∧ (frame s.fb).length = 1048) ∧
  (∀ (b : Byte) (s : State), ∃ t, issueAndWait (.cmd b) s = .next t ∧ t.trace = s.trace ++ [⟨b, .command⟩])

/-- R137: the laws of CMD. -/
def Obligations.CmdLaws : Prop :=
  (∀ (b : Byte) (s : State), ∃ t, issueAll [.cmd b] s = .next t ∧ t.trace = s.trace ++ [⟨b, .command⟩]) ∧
  (∀ (bs : List Byte) (s : State), ∃ t, issueAll (bs.map Instr.cmd) s = .next t ∧
    t.trace = s.trace ++ bs.map fun b => ⟨b, .command⟩) ∧
  (∀ (b : Byte) (s : State), (∃ t, issueAll [.flush, .cmd b] s = .next t ∧
      t.trace = s.trace ++ (frame s.fb ++ [⟨b, .command⟩])) ∧
    ∃ t, issueAll [.cmd b, .flush] s = .next t ∧ t.trace = s.trace ++ (⟨b, .command⟩ :: frame s.fb))

/-! ### The host's software -/

/-- R163, R164: a rectangle with its corners in order is its SETPX commands, x outer and y inner, those past 255 left
out, and then a FLUSH; it sets exactly the in-range pixels, in this order of the commands or any other, and sends the
frame of the result. A reversed one is refused. -/
def Obligations.FillRectSetsItsRectangle : Prop :=
  (∀ (x1 y1 x2 y2 : Nat) (on : Bool) (s : State), x1 ≤ x2 → y1 ≤ y2 → s.phase = .idle →
    ∃ cs t, Software.fillRect x1 y1 x2 y2 on = some (cs ++ [.flush]) ∧
      cs = (((List.range (x2 + 1 - x1)).flatMap fun i => (List.range (y2 + 1 - y1)).map fun j => (x1 + i, y1 + j)).filter
        fun c => decide (c.1 ≤ 255) && decide (c.2 ≤ 255)).map
          (fun c => .setpx (BitVec.ofNat 8 c.1) (BitVec.ofNat 8 c.2) on) ∧
      issueAll (cs ++ [.flush]) s = .next t ∧
      (∀ x y, x < 128 → y < 64 → t.fb.pixel x y =
        if x1 ≤ x ∧ x ≤ x2 ∧ y1 ≤ y ∧ y ≤ y2 then on else s.fb.pixel x y) ∧
      t.trace = s.trace ++ frame t.fb ∧
      ∀ cs' : List Instr, cs'.Perm cs → ∃ u, issueAll cs' s = .next u ∧ ∀ p c, u.fb.read p c = t.fb.read p c) ∧
  (∀ (x1 y1 x2 y2 : Nat) (on : Bool), ¬(x1 ≤ x2 ∧ y1 ≤ y2) → Software.fillRect x1 y1 x2 y2 on = none)

/-- R166, R167, R169: the calls of draw_char in closed form, column by column and top to bottom: pixel (i, j) of the
cell is bit 7 - j % 8 of byte ceil(size/8) * i + j / 8, as it is with mode 1 and complemented otherwise; how many they
are; that each in its turn issues one SETPX or, past 255, nothing; and that an unsupported size or code draws nothing. -/
def Obligations.DrawCharPaintsTheCell : Prop :=
  (∀ (P : HostParams) (x y code size mode : Nat), size = 12 ∨ size = 16 ∨ size = 24 → 0x20 ≤ code → code ≤ 0x7E →
    Software.charCalls P x y code size mode =
      ((List.range (size / 2)).flatMap fun i => (List.range size).map fun j =>
        let bit := (P.glyph (code - 0x20) size ((size + 7) / 8 * i + j / 8)).getLsbD (7 - j % 8)
        ⟨x + i, y + j, if mode = 1 then bit else !bit⟩) ∧
    (Software.charCalls P x y code size mode).length = size * (size / 2)) ∧
  (∀ (P : HostParams) (x y code size mode : Nat), Software.drawChar P x y code size mode =
    (Software.charCalls P x y code size mode).filterMap fun c =>
      if c.cx ≤ 255 ∧ c.cy ≤ 255 then some (.setpx (BitVec.ofNat 8 c.cx) (BitVec.ofNat 8 c.cy) c.v) else none) ∧
  (∀ (P : HostParams) (x y code size mode : Nat),
    ¬(size = 12 ∨ size = 16 ∨ size = 24) ∨ code < 0x20 ∨ 0x7E < code → Software.drawChar P x y code size mode = [])

/-- R171: the corner cases of draw_number, with the rule for each of its cells. -/
def Obligations.DrawNumberCornerCases : Prop :=
  (∀ value n, (Software.numberText value n).length = n) ∧
  (∀ value n t, t < n → (Software.numberText value n)[t]? = some
    (if t = n - 1 ∨ ∃ t' ≤ t, value / 10 ^ (n - 1 - t') % 10 ≠ 0 then 0x30 + value / 10 ^ (n - 1 - t) % 10 else 0x20)) ∧
  (∀ value n, Software.numberText value n = Software.numberText (value % 10 ^ n) n) ∧
  (∀ n, Software.numberText 0 (n + 1) = List.replicate n 0x20 ++ [0x30]) ∧
  (∀ value, Software.numberText value 1 = [0x30 + value % 10]) ∧
  (∀ (P : HostParams) (x y value size : Nat), Software.drawNumber P x y value 0 size = [])

/-- R173, R174: where draw_string puts its next character: after a wrap when the cell would pass column 128, at the
origin of a cleared screen when it would pass row 64. -/
def Obligations.DrawStringWrapsAndOverflows : Prop :=
  ∀ (size ch cx cy : Nat) (text : List Nat), 0x20 ≤ ch → ch ≤ 0x7E →
    (cx + size / 2 ≤ 128 → cy + size ≤ 64 →
      Software.stringSteps size (ch :: text) cx cy =
        .char cx cy ch :: Software.stringSteps size text (cx + size / 2) cy) ∧
    (128 < cx + size / 2 → cy + size + size ≤ 64 →
      Software.stringSteps size (ch :: text) cx cy =
        .char 0 (cy + size) ch :: Software.stringSteps size text (size / 2) (cy + size)) ∧
    ((if 128 < cx + size / 2 then 64 < cy + size + size else 64 < cy + size) →
      Software.stringSteps size (ch :: text) cx cy =
        .overflowClear :: .char 0 0 ch :: Software.stringSteps size text (size / 2) 0)

/-- R176: a string of k characters that does not wrap, one cell of size / 2 columns a character. -/
def Obligations.DrawStringAdvancesByTheCell : Prop :=
  ∀ (size x y : Nat) (text : List Nat), (∀ ch ∈ text, 0x20 ≤ ch ∧ ch ≤ 0x7E) →
    x + text.length * (size / 2) ≤ 128 → y + size ≤ 64 →
    Software.stringSteps size text x y = text.zipIdx.map fun e => .char (x + e.2 * (size / 2)) y e.1

/-- R162, R175: which host operations end with a FLUSH, and that the others hold none. -/
def Obligations.FlushPolicyOfTheHost : Prop :=
  Software.clear.getLast? = some .flush ∧
  (∀ x1 y1 x2 y2 on is, Software.fillRect x1 y1 x2 y2 on = some is → is.getLast? = some .flush) ∧
  (∀ P : HostParams, (Software.initDisplay P).getLast? = some (.issue .flush)) ∧
  (∀ x y on, Instr.flush ∉ Software.drawPoint x y on) ∧
  (∀ (P : HostParams) (x y code size mode : Nat), Instr.flush ∉ Software.drawChar P x y code size mode) ∧
  (∀ (P : HostParams) (x y value n size : Nat), Instr.flush ∉ Software.drawNumber P x y value n size) ∧
  (∀ (P : HostParams) (x y : Nat) (text : List Nat) (size : Nat), Instr.flush ∉ Software.drawString P x y text size) ∧
  (∀ P : HostParams, Instr.flush ∉ Software.displayOn P ∧ Instr.flush ∉ Software.displayOff P)

/-- R182: what `initialize` puts on the trace of an idle block. -/
def Obligations.InitializeSendsOneZeroFrame : Prop :=
  ∀ (P : HostParams) (s : State), s.phase = .idle → ∃ t, runActions (Software.initDisplay P) s = .next t ∧
    t.trace = s.trace ++ (P.initSequence.map (fun b => ⟨b, .command⟩) ++ frame Memory.zero) ∧
    (∀ e ∈ frame Memory.zero, e.kind = .data → e.byte = 0x00) ∧
    t.trace.length = s.trace.length + P.initSequence.length + 1048

/-- R79: each pseudo-instruction is exactly one SETPX, on all operands. -/
def Obligations.PseudoInstructionsExpandToSetpx : Prop :=
  ∀ x y on : Nat,
    Assembler.build .pset [x, y] = Assembler.build .setpx [x, y, 1] ∧
    Assembler.build .pclr [x, y] = Assembler.build .setpx [x, y, 0] ∧
    Assembler.build .drawPoint [x, y, on] = Assembler.build .setpx [x, y, on] ∧
    (x ≤ 255 → y ≤ 255 → on ≤ 1 → Assembler.build .drawPoint [x, y, on] =
      some (.setpx (BitVec.ofNat 8 x) (BitVec.ofNat 8 y) (decide (on = 1))))

/-- The assembler takes an operand exactly in its range, and truncates none (R78). -/
def Obligations.AssemblerRejectsWhatDoesNotFit : Prop :=
  ∀ x y on : Nat,
    Assembler.build .setpx [x, y, on] = (if x ≤ 255 ∧ y ≤ 255 ∧ on ≤ 1 then
      some (.setpx (BitVec.ofNat 8 x) (BitVec.ofNat 8 y) (decide (on = 1))) else none) ∧
    Assembler.build .getpx [x, y] = (if x ≤ 255 ∧ y ≤ 255 then
      some (.getpx (BitVec.ofNat 8 x) (BitVec.ofNat 8 y)) else none) ∧
    Assembler.build .rdbyte [x, y] = (if x ≤ 255 ∧ y ≤ 255 then
      some (.rdbyte (BitVec.ofNat 8 x) (BitVec.ofNat 8 y)) else none) ∧
    Assembler.build .cmd [x] = (if x ≤ 255 then some (.cmd (BitVec.ofNat 8 x)) else none)
end

