-- ==== Sys2Proof/Laws/Operands.lean ====
section
/-! SUPPORT. What the operand forms mean, bit by bit and as numbers. -/

namespace Sys2Proof.Machine

theorem inRange_iff {x y : Byte} : inRange x y = true ↔ x.toNat < 128 ∧ y.toNat < 64 := by
  simp only [inRange, Bool.and_eq_true, decide_eq_true_eq]
  exact Iff.rfl

theorem byteInRange_iff {c p : Byte} : byteInRange c p = true ↔ c.toNat < 128 ∧ p.toNat < 8 := by
  simp only [byteInRange, Bool.and_eq_true, decide_eq_true_eq]
  exact Iff.rfl

theorem columnOf_eq (x : Byte) : columnOf x = BitVec.ofNat 7 x.toNat := rfl

theorem pageOf_eq (y : Byte) : pageOf y = BitVec.ofNat 3 (y.toNat / 8) := rfl

theorem pageIndex_eq (p : Byte) : pageIndex p = BitVec.ofNat 3 p.toNat := rfl

theorem bitOf_eq (y : Byte) : bitOf y = y.toNat % 8 := rfl

theorem bitOf_lt (y : Byte) : bitOf y < 8 := Nat.mod_lt _ (by decide)

theorem columnOf_toNat {x : Byte} (h : x.toNat < 128) : (columnOf x).toNat = x.toNat := by
  simpa [columnOf] using h

theorem pageOf_toNat {y : Byte} (h : y.toNat < 64) : (pageOf y).toNat = y.toNat / 8 := by
  simp only [pageOf, Config.pageBits, BitVec.toNat_ofNat]
  omega

theorem pageIndex_toNat {p : Byte} (h : p.toNat < 8) : (pageIndex p).toNat = p.toNat := by
  simpa [pageIndex] using h

/-- The mask of a row is one-hot at its bit. -/
theorem maskOf_getLsbD (y : Byte) (b : Nat) : (maskOf y).getLsbD b = decide (b = bitOf y) := by
  have hy := bitOf_lt y
  simp only [maskOf, BitVec.getLsbD_shiftLeft, BitVec.getLsbD_one]
  by_cases hb : b = bitOf y
  · simp [hb, hy]
  · simp only [hb, decide_false]
    by_cases hlt : b < bitOf y
    · simp [hlt]
    · have : b - bitOf y ≠ 0 := by omega
      simp [this]

/-- Setting or clearing the bits of a mask changes those bits alone. -/
theorem setBits_getLsbD (b m : Byte) (on : Bool) (n : Nat) (hn : n < 8) :
    (setBits b m on).getLsbD n = if m.getLsbD n then on else b.getLsbD n := by
  rw [BitVec.getLsbD_eq_getElem hn, BitVec.getLsbD_eq_getElem hn, BitVec.getLsbD_eq_getElem hn]
  cases on <;> cases h : m[n] <;> simp [setBits, h]

/-- The pixel of a page byte as the number 0 or 1. -/
theorem pixelBit_eq (b : Byte) (n : Nat) : pixelBit b n = if b.getLsbD n then 1 else 0 := by
  have hbit : ((b >>> n) &&& 1#8) = BitVec.setWidth 8 (BitVec.ofBool (b.getLsbD n)) := by
    apply BitVec.eq_of_getLsbD_eq
    intro i hi
    rcases Nat.eq_zero_or_pos i with h0 | hpos
    · subst h0; simp
    · have : i ≠ 0 := by omega
      simp [this, BitVec.getLsbD_ofBool]
  rw [pixelBit, hbit]
  cases b.getLsbD n <;> rfl

end Sys2Proof.Machine
end

