-- ==== Sys2Proof/Laws/State.lean ====
section
/-! SUPPORT. For every named update of the state, what each field is after it. -/

namespace Sys2Proof.Machine

section setOob
variable (s : State)
@[simp] theorem State.setOob_phase : s.setOob.phase = s.phase := rfl
@[simp] theorem State.setOob_page : s.setOob.page = s.page := rfl
@[simp] theorem State.setOob_col : s.setOob.col = s.col := rfl
@[simp] theorem State.setOob_cmdbuf : s.setOob.cmdbuf = s.cmdbuf := rfl
@[simp] theorem State.setOob_ill : s.setOob.ill = s.ill := rfl
@[simp] theorem State.setOob_oob : s.setOob.oob = true := rfl
@[simp] theorem State.setOob_rdata : s.setOob.rdata = s.rdata := rfl
@[simp] theorem State.setOob_fb : s.setOob.fb = s.fb := rfl
@[simp] theorem State.setOob_trace : s.setOob.trace = s.trace := rfl
@[simp] theorem State.setOob_cmdQueue : s.setOob.cmdQueue = s.cmdQueue := rfl
@[simp] theorem State.setOob_ports : s.setOob.ports = s.ports := rfl
@[simp] theorem State.setOob_upcoming : s.setOob.upcoming = s.upcoming := rfl
@[simp] theorem State.setOob_resetIndex : s.setOob.resetIndex = s.resetIndex := rfl
end setOob

section setIll
variable (s : State)
@[simp] theorem State.setIll_phase : s.setIll.phase = s.phase := rfl
@[simp] theorem State.setIll_page : s.setIll.page = s.page := rfl
@[simp] theorem State.setIll_col : s.setIll.col = s.col := rfl
@[simp] theorem State.setIll_cmdbuf : s.setIll.cmdbuf = s.cmdbuf := rfl
@[simp] theorem State.setIll_ill : s.setIll.ill = true := rfl
@[simp] theorem State.setIll_oob : s.setIll.oob = s.oob := rfl
@[simp] theorem State.setIll_rdata : s.setIll.rdata = s.rdata := rfl
@[simp] theorem State.setIll_fb : s.setIll.fb = s.fb := rfl
@[simp] theorem State.setIll_trace : s.setIll.trace = s.trace := rfl
@[simp] theorem State.setIll_cmdQueue : s.setIll.cmdQueue = s.cmdQueue := rfl
@[simp] theorem State.setIll_ports : s.setIll.ports = s.ports := rfl
@[simp] theorem State.setIll_upcoming : s.setIll.upcoming = s.upcoming := rfl
@[simp] theorem State.setIll_resetIndex : s.setIll.resetIndex = s.resetIndex := rfl
end setIll

section clearFlags
variable (s : State)
@[simp] theorem State.clearFlags_phase : s.clearFlags.phase = s.phase := rfl
@[simp] theorem State.clearFlags_page : s.clearFlags.page = s.page := rfl
@[simp] theorem State.clearFlags_col : s.clearFlags.col = s.col := rfl
@[simp] theorem State.clearFlags_cmdbuf : s.clearFlags.cmdbuf = s.cmdbuf := rfl
@[simp] theorem State.clearFlags_ill : s.clearFlags.ill = false := rfl
@[simp] theorem State.clearFlags_oob : s.clearFlags.oob = false := rfl
@[simp] theorem State.clearFlags_rdata : s.clearFlags.rdata = s.rdata := rfl
@[simp] theorem State.clearFlags_fb : s.clearFlags.fb = s.fb := rfl
@[simp] theorem State.clearFlags_trace : s.clearFlags.trace = s.trace := rfl
@[simp] theorem State.clearFlags_cmdQueue : s.clearFlags.cmdQueue = s.cmdQueue := rfl
@[simp] theorem State.clearFlags_ports : s.clearFlags.ports = s.ports := rfl
@[simp] theorem State.clearFlags_upcoming : s.clearFlags.upcoming = s.upcoming := rfl
@[simp] theorem State.clearFlags_resetIndex : s.clearFlags.resetIndex = s.resetIndex := rfl
end clearFlags

section writeByte
variable (s : State) (p : Page) (c : Column) (v : Byte)
@[simp] theorem State.writeByte_phase : (s.writeByte p c v).phase = s.phase := rfl
@[simp] theorem State.writeByte_page : (s.writeByte p c v).page = s.page := rfl
@[simp] theorem State.writeByte_col : (s.writeByte p c v).col = s.col := rfl
@[simp] theorem State.writeByte_cmdbuf : (s.writeByte p c v).cmdbuf = s.cmdbuf := rfl
@[simp] theorem State.writeByte_ill : (s.writeByte p c v).ill = s.ill := rfl
@[simp] theorem State.writeByte_oob : (s.writeByte p c v).oob = s.oob := rfl
@[simp] theorem State.writeByte_rdata : (s.writeByte p c v).rdata = s.rdata := rfl
@[simp] theorem State.writeByte_fb : (s.writeByte p c v).fb = s.fb.write p c v := rfl
@[simp] theorem State.writeByte_trace : (s.writeByte p c v).trace = s.trace := rfl
@[simp] theorem State.writeByte_cmdQueue : (s.writeByte p c v).cmdQueue = s.cmdQueue := rfl
@[simp] theorem State.writeByte_ports : (s.writeByte p c v).ports = s.ports := rfl
@[simp] theorem State.writeByte_upcoming : (s.writeByte p c v).upcoming = s.upcoming := rfl
@[simp] theorem State.writeByte_resetIndex : (s.writeByte p c v).resetIndex = s.resetIndex := rfl
end writeByte

section zeroFb
variable (s : State)
@[simp] theorem State.zeroFb_phase : s.zeroFb.phase = s.phase := rfl
@[simp] theorem State.zeroFb_page : s.zeroFb.page = s.page := rfl
@[simp] theorem State.zeroFb_col : s.zeroFb.col = s.col := rfl
@[simp] theorem State.zeroFb_cmdbuf : s.zeroFb.cmdbuf = s.cmdbuf := rfl
@[simp] theorem State.zeroFb_ill : s.zeroFb.ill = s.ill := rfl
@[simp] theorem State.zeroFb_oob : s.zeroFb.oob = s.oob := rfl
@[simp] theorem State.zeroFb_rdata : s.zeroFb.rdata = s.rdata := rfl
@[simp] theorem State.zeroFb_fb : s.zeroFb.fb = Memory.zero := rfl
@[simp] theorem State.zeroFb_trace : s.zeroFb.trace = s.trace := rfl
@[simp] theorem State.zeroFb_cmdQueue : s.zeroFb.cmdQueue = s.cmdQueue := rfl
@[simp] theorem State.zeroFb_ports : s.zeroFb.ports = s.ports := rfl
@[simp] theorem State.zeroFb_upcoming : s.zeroFb.upcoming = s.upcoming := rfl
@[simp] theorem State.zeroFb_resetIndex : s.zeroFb.resetIndex = s.resetIndex := rfl
end zeroFb

section setRdata
variable (s : State) (v : Byte)
@[simp] theorem State.setRdata_phase : (s.setRdata v).phase = s.phase := rfl
@[simp] theorem State.setRdata_page : (s.setRdata v).page = s.page := rfl
@[simp] theorem State.setRdata_col : (s.setRdata v).col = s.col := rfl
@[simp] theorem State.setRdata_cmdbuf : (s.setRdata v).cmdbuf = s.cmdbuf := rfl
@[simp] theorem State.setRdata_ill : (s.setRdata v).ill = s.ill := rfl
@[simp] theorem State.setRdata_oob : (s.setRdata v).oob = s.oob := rfl
@[simp] theorem State.setRdata_rdata : (s.setRdata v).rdata = v := rfl
@[simp] theorem State.setRdata_fb : (s.setRdata v).fb = s.fb := rfl
@[simp] theorem State.setRdata_trace : (s.setRdata v).trace = s.trace := rfl
@[simp] theorem State.setRdata_cmdQueue : (s.setRdata v).cmdQueue = s.cmdQueue := rfl
@[simp] theorem State.setRdata_ports : (s.setRdata v).ports = s.ports := rfl
@[simp] theorem State.setRdata_upcoming : (s.setRdata v).upcoming = s.upcoming := rfl
@[simp] theorem State.setRdata_resetIndex : (s.setRdata v).resetIndex = s.resetIndex := rfl
end setRdata

section setCmdbuf
variable (s : State) (b : Byte)
@[simp] theorem State.setCmdbuf_phase : (s.setCmdbuf b).phase = s.phase := rfl
@[simp] theorem State.setCmdbuf_page : (s.setCmdbuf b).page = s.page := rfl
@[simp] theorem State.setCmdbuf_col : (s.setCmdbuf b).col = s.col := rfl
@[simp] theorem State.setCmdbuf_cmdbuf : (s.setCmdbuf b).cmdbuf = b := rfl
@[simp] theorem State.setCmdbuf_ill : (s.setCmdbuf b).ill = s.ill := rfl
@[simp] theorem State.setCmdbuf_oob : (s.setCmdbuf b).oob = s.oob := rfl
@[simp] theorem State.setCmdbuf_rdata : (s.setCmdbuf b).rdata = s.rdata := rfl
@[simp] theorem State.setCmdbuf_fb : (s.setCmdbuf b).fb = s.fb := rfl
@[simp] theorem State.setCmdbuf_trace : (s.setCmdbuf b).trace = s.trace := rfl
@[simp] theorem State.setCmdbuf_cmdQueue : (s.setCmdbuf b).cmdQueue = s.cmdQueue := rfl
@[simp] theorem State.setCmdbuf_ports : (s.setCmdbuf b).ports = s.ports := rfl
@[simp] theorem State.setCmdbuf_upcoming : (s.setCmdbuf b).upcoming = s.upcoming := rfl
@[simp] theorem State.setCmdbuf_resetIndex : (s.setCmdbuf b).resetIndex = s.resetIndex := rfl
end setCmdbuf

section setPosition
variable (s : State) (ph : Phase) (p : Page) (c : Column)
@[simp] theorem State.setPosition_phase : (s.setPosition ph p c).phase = ph := rfl
@[simp] theorem State.setPosition_page : (s.setPosition ph p c).page = p := rfl
@[simp] theorem State.setPosition_col : (s.setPosition ph p c).col = c := rfl
@[simp] theorem State.setPosition_cmdbuf : (s.setPosition ph p c).cmdbuf = s.cmdbuf := rfl
@[simp] theorem State.setPosition_ill : (s.setPosition ph p c).ill = s.ill := rfl
@[simp] theorem State.setPosition_oob : (s.setPosition ph p c).oob = s.oob := rfl
@[simp] theorem State.setPosition_rdata : (s.setPosition ph p c).rdata = s.rdata := rfl
@[simp] theorem State.setPosition_fb : (s.setPosition ph p c).fb = s.fb := rfl
@[simp] theorem State.setPosition_trace : (s.setPosition ph p c).trace = s.trace := rfl
@[simp] theorem State.setPosition_cmdQueue : (s.setPosition ph p c).cmdQueue = s.cmdQueue := rfl
@[simp] theorem State.setPosition_ports : (s.setPosition ph p c).ports = s.ports := rfl
@[simp] theorem State.setPosition_upcoming : (s.setPosition ph p c).upcoming = s.upcoming := rfl
@[simp] theorem State.setPosition_resetIndex : (s.setPosition ph p c).resetIndex = s.resetIndex := rfl
end setPosition

section append
variable (s : State) (e : TraceEntry)
@[simp] theorem State.append_phase : (s.append e).phase = s.phase := rfl
@[simp] theorem State.append_page : (s.append e).page = s.page := rfl
@[simp] theorem State.append_col : (s.append e).col = s.col := rfl
@[simp] theorem State.append_cmdbuf : (s.append e).cmdbuf = s.cmdbuf := rfl
@[simp] theorem State.append_ill : (s.append e).ill = s.ill := rfl
@[simp] theorem State.append_oob : (s.append e).oob = s.oob := rfl
@[simp] theorem State.append_rdata : (s.append e).rdata = s.rdata := rfl
@[simp] theorem State.append_fb : (s.append e).fb = s.fb := rfl
@[simp] theorem State.append_trace : (s.append e).trace = s.trace ++ [e] := rfl
@[simp] theorem State.append_cmdQueue : (s.append e).cmdQueue = s.cmdQueue := rfl
@[simp] theorem State.append_ports : (s.append e).ports = s.ports := rfl
@[simp] theorem State.append_upcoming : (s.append e).upcoming = s.upcoming := rfl
@[simp] theorem State.append_resetIndex : (s.append e).resetIndex = s.resetIndex := rfl
end append

section takeWord
variable (s : State)
@[simp] theorem State.takeWord_phase : s.takeWord.phase = s.phase := rfl
@[simp] theorem State.takeWord_page : s.takeWord.page = s.page := rfl
@[simp] theorem State.takeWord_col : s.takeWord.col = s.col := rfl
@[simp] theorem State.takeWord_cmdbuf : s.takeWord.cmdbuf = s.cmdbuf := rfl
@[simp] theorem State.takeWord_ill : s.takeWord.ill = s.ill := rfl
@[simp] theorem State.takeWord_oob : s.takeWord.oob = s.oob := rfl
@[simp] theorem State.takeWord_rdata : s.takeWord.rdata = s.rdata := rfl
@[simp] theorem State.takeWord_fb : s.takeWord.fb = s.fb := rfl
@[simp] theorem State.takeWord_trace : s.takeWord.trace = s.trace := rfl
@[simp] theorem State.takeWord_cmdQueue : s.takeWord.cmdQueue = s.cmdQueue.tail := rfl
@[simp] theorem State.takeWord_ports : s.takeWord.ports = s.ports := rfl
@[simp] theorem State.takeWord_upcoming : s.takeWord.upcoming = s.upcoming := rfl
@[simp] theorem State.takeWord_resetIndex : s.takeWord.resetIndex = s.resetIndex := rfl
end takeWord

section resetBlock
variable (s : State)
@[simp] theorem State.resetBlock_phase : s.resetBlock.phase = .idle := rfl
@[simp] theorem State.resetBlock_page : s.resetBlock.page = 0 := rfl
@[simp] theorem State.resetBlock_col : s.resetBlock.col = 0 := rfl
@[simp] theorem State.resetBlock_cmdbuf : s.resetBlock.cmdbuf = 0 := rfl
@[simp] theorem State.resetBlock_ill : s.resetBlock.ill = false := rfl
@[simp] theorem State.resetBlock_oob : s.resetBlock.oob = false := rfl
@[simp] theorem State.resetBlock_rdata : s.resetBlock.rdata = 0 := rfl
@[simp] theorem State.resetBlock_fb : s.resetBlock.fb = Memory.ofBytes (Config.fbReset s.resetIndex) := rfl
@[simp] theorem State.resetBlock_trace : s.resetBlock.trace = s.trace := rfl
@[simp] theorem State.resetBlock_cmdQueue : s.resetBlock.cmdQueue = s.cmdQueue := rfl
@[simp] theorem State.resetBlock_ports : s.resetBlock.ports = s.ports := rfl
@[simp] theorem State.resetBlock_upcoming : s.resetBlock.upcoming = s.upcoming := rfl
@[simp] theorem State.resetBlock_resetIndex : s.resetBlock.resetIndex = s.resetIndex + 1 := rfl
end resetBlock

section advancePorts
variable (s : State)
@[simp] theorem State.advancePorts_phase : s.advancePorts.phase = s.phase := by
  unfold State.advancePorts; split <;> rfl
@[simp] theorem State.advancePorts_page : s.advancePorts.page = s.page := by
  unfold State.advancePorts; split <;> rfl
@[simp] theorem State.advancePorts_col : s.advancePorts.col = s.col := by
  unfold State.advancePorts; split <;> rfl
@[simp] theorem State.advancePorts_cmdbuf : s.advancePorts.cmdbuf = s.cmdbuf := by
  unfold State.advancePorts; split <;> rfl
@[simp] theorem State.advancePorts_ill : s.advancePorts.ill = s.ill := by
  unfold State.advancePorts; split <;> rfl
@[simp] theorem State.advancePorts_oob : s.advancePorts.oob = s.oob := by
  unfold State.advancePorts; split <;> rfl
@[simp] theorem State.advancePorts_rdata : s.advancePorts.rdata = s.rdata := by
  unfold State.advancePorts; split <;> rfl
@[simp] theorem State.advancePorts_fb : s.advancePorts.fb = s.fb := by
  unfold State.advancePorts; split <;> rfl
@[simp] theorem State.advancePorts_trace : s.advancePorts.trace = s.trace := by
  unfold State.advancePorts; split <;> rfl
@[simp] theorem State.advancePorts_cmdQueue : s.advancePorts.cmdQueue = s.cmdQueue := by
  unfold State.advancePorts; split <;> rfl
@[simp] theorem State.advancePorts_resetIndex : s.advancePorts.resetIndex = s.resetIndex := by
  unfold State.advancePorts; split <;> rfl
@[simp] theorem State.advancePorts_ports : s.advancePorts.ports = s.upcoming.headD s.ports := by
  unfold State.advancePorts; split <;> simp [*]
@[simp] theorem State.advancePorts_upcoming : s.advancePorts.upcoming = s.upcoming.tail := by
  unfold State.advancePorts; split <;> simp [*]
end advancePorts

/-- The one thing `State.advancePorts` does: the input wires move on, and nothing else changes. -/
theorem State.advancePorts_eq (s : State) :
    s.advancePorts = { s with ports := s.upcoming.headD s.ports, upcoming := s.upcoming.tail } := by
  cases s with
  | mk ph p c cb i o r fb tr q now later ri => cases later <;> rfl

end Sys2Proof.Machine
end

