-- ==== Sys2Proof/Laws/Exec.lean ====
section
/-! SUPPORT. One lemma per meaning: the state it answers. Every meaning answers one, so proofs need not look inside. -/

namespace Sys2Proof.Machine

/-- The state a command's ACCEPT step leads to. -/
def execState : Instr → State → State
  | .nop, s => s
  | .setpx x y on, s =>
    if inRange x y then
      s.writeByte (pageOf y) (columnOf x) (setBits (s.readByte (pageOf y) (columnOf x)) (maskOf y) on)
    else s.setOob
  | .getpx x y, s =>
    if inRange x y then s.setRdata (pixelBit (s.readByte (pageOf y) (columnOf x)) (bitOf y))
    else (s.setRdata 0x00).setOob
  | .clear, s => s.zeroFb
  | .flush, s => s.setPosition .pgsel 0 0
  | .cmd byte, s => (s.setCmdbuf byte).setPosition .cmdout 0 0
  | .rdbyte col page, s =>
    if byteInRange col page then s.setRdata (s.readByte (pageIndex page) (columnOf col))
    else (s.setRdata 0x00).setOob
  | .clrstat, s => s.clearFlags
  | .reserved _, s => s.setIll

/-- Every command answers that state: none stops. -/
theorem exec_eq (i : Instr) (s : State) : exec i s = .next (execState i s) := by
  cases i with
  | setpx x y on => by_cases h : inRange x y <;> simp [exec, execSetpx, execState, h]
  | getpx x y => by_cases h : inRange x y <;> simp [exec, execGetpx, execState, h]
  | rdbyte col page => by_cases h : byteInRange col page <;> simp [exec, execRdbyte, execState, h]
  | nop => rfl
  | clear => rfl
  | flush => rfl
  | cmd byte => rfl
  | clrstat => rfl
  | reserved op => rfl

/-- A command touches nothing of the world outside the block's registers: the trace, the host's words and the wires. -/
theorem execState_outside (i : Instr) (s : State) :
    (execState i s).trace = s.trace ∧ (execState i s).cmdQueue = s.cmdQueue ∧ (execState i s).ports = s.ports ∧
      (execState i s).upcoming = s.upcoming ∧ (execState i s).resetIndex = s.resetIndex := by
  cases i <;> simp only [execState] <;> (try split) <;> simp

end Sys2Proof.Machine
end

