-- ==== Sys2Proof/Laws/Flags.lean ====
section
/-! SUPPORT. BUSY and the encoding of PHASE. -/

namespace Sys2Proof.Machine

theorem State.busy_iff {s : State} : s.busy = true ↔ s.phase ≠ .idle := by
  simp [State.busy]

theorem State.busy_false_iff {s : State} : s.busy = false ↔ s.phase = .idle := by
  simp [State.busy]

theorem State.cmdReady_iff {s : State} : s.cmdReady = true ↔ s.phase = .idle := by
  simp [State.cmdReady, State.busy]

/-- Two phases with one code are one phase. -/
theorem Phase.code_inj {a b : Phase} : a.code = b.code ↔ a = b := by
  cases a <;> cases b <;> decide

end Sys2Proof.Machine
end

