-- ==== Sys2Proof/Laws/Memory.lean ====
section
/-! SUPPORT. The laws of the framebuffer store: read after write, the canonical form, and equality by contents. -/

namespace Sys2Proof.Machine

theorem Memory.key_lt (p : Page) (c : Column) : Memory.key p c < Config.fbBytes := by
  have hp := p.isLt
  have hc := c.isLt
  simp only [Memory.key, Config.columns, Config.fbBytes, Config.pages]
  omega

/-- Two page bytes share a list key only if they are one byte. -/
theorem Memory.key_inj {p p' : Page} {c c' : Column} :
    Memory.key p c = Memory.key p' c' ↔ p = p' ∧ c = c' := by
  refine ⟨fun h => ?_, fun ⟨hp, hc⟩ => by rw [hp, hc]⟩
  have hc := c.isLt
  have hc' := c'.isLt
  simp only [Memory.key, Config.columns] at h
  exact ⟨BitVec.eq_of_toNat_eq (by omega), BitVec.eq_of_toNat_eq (by omega)⟩

/-- Every key below FB_BYTES names a page byte. -/
theorem Memory.key_of_lt {k : Nat} (h : k < Config.fbBytes) :
    Memory.key (BitVec.ofNat 3 (k / Config.columns)) (BitVec.ofNat 7 (k % Config.columns)) = k := by
  simp only [Config.fbBytes, Config.columns, Config.pages] at h
  simp only [Memory.key, Config.columns, BitVec.toNat_ofNat]
  omega

theorem Memory.lookup_erase_same (m : Memory) (k : Nat) : (m.erase k).lookup k = Memory.background := by
  induction m with
  | nil => rfl
  | cons e m ih =>
    by_cases h : e.1 = k
    · simpa [Memory.erase, h] using ih
    · simpa [Memory.erase, h, Memory.lookup] using ih

theorem Memory.lookup_erase_other (m : Memory) {k k' : Nat} (hk : k' ≠ k) :
    (m.erase k).lookup k' = m.lookup k' := by
  induction m with
  | nil => rfl
  | cons e m ih =>
    by_cases h : e.1 = k
    · have h' : e.1 ≠ k' := fun h' => hk (h' ▸ h)
      simpa [Memory.erase, h, Memory.lookup, h', hk.symm] using ih
    · simp only [Memory.erase] at ih
      simp [Memory.erase, h, Memory.lookup, ih]

theorem Memory.lookup_insert_same (m : Memory) (k : Nat) (v : Byte) : (Memory.insert k v m).lookup k = v := by
  induction m with
  | nil => simp [Memory.insert, Memory.lookup]
  | cons e m ih =>
    by_cases h : e.1 < k
    · simp [Memory.insert, h, Memory.lookup, Nat.ne_of_lt h, ih]
    · simp [Memory.insert, h, Memory.lookup]

theorem Memory.lookup_insert_other (m : Memory) (v : Byte) {k k' : Nat} (hk : k' ≠ k) :
    (Memory.insert k v m).lookup k' = m.lookup k' := by
  induction m with
  | nil => simp [Memory.insert, Memory.lookup, hk.symm]
  | cons e m ih =>
    by_cases h : e.1 < k
    · simp [Memory.insert, h, Memory.lookup, ih]
    · simp [Memory.insert, h, Memory.lookup, hk.symm]

theorem Memory.lookup_store (m : Memory) (k k' : Nat) (v : Byte) :
    (m.store k v).lookup k' = if k' = k then v else m.lookup k' := by
  unfold Memory.store
  split
  next hv =>
    split
    next h => rw [h, Memory.lookup_erase_same, hv]
    next h => exact Memory.lookup_erase_other m h
  next =>
    split
    next h => rw [h, Memory.lookup_insert_same]
    next h => rw [Memory.lookup_insert_other _ v h, Memory.lookup_erase_other m h]

/-- The one law of reading after writing: the written byte, and every other byte as before. -/
theorem Memory.read_write (m : Memory) (p p' : Page) (c c' : Column) (v : Byte) :
    (m.write p c v).read p' c' = if p' = p ∧ c' = c then v else m.read p' c' := by
  simp only [Memory.read, Memory.write, Memory.lookup_store, Memory.key_inj]

@[simp] theorem Memory.read_write_same (m : Memory) (p : Page) (c : Column) (v : Byte) :
    (m.write p c v).read p c = v := by
  simp [Memory.read_write]

@[simp] theorem Memory.read_zero (p : Page) (c : Column) : Memory.zero.read p c = 0 := rfl

theorem Memory.wfFrom_mono {lo lo' : Nat} (h : lo ≤ lo') {m : Memory} (hm : Memory.wfFrom lo' m = true) :
    Memory.wfFrom lo m = true := by
  cases m with
  | nil => rfl
  | cons e m =>
    simp only [Memory.wfFrom, Bool.and_eq_true, decide_eq_true_eq] at hm ⊢
    exact ⟨⟨⟨h.trans hm.1.1.1, hm.1.1.2⟩, hm.1.2⟩, hm.2⟩

theorem Memory.wfFrom_erase {m : Memory} {lo : Nat} (k : Nat) (hm : Memory.wfFrom lo m = true) :
    Memory.wfFrom lo (m.erase k) = true := by
  induction m generalizing lo with
  | nil => rfl
  | cons e m ih =>
    simp only [Memory.wfFrom, Bool.and_eq_true, decide_eq_true_eq] at hm
    by_cases h : e.1 = k
    · have hlo : lo ≤ e.1 + 1 := Nat.le_succ_of_le hm.1.1.1
      simpa [Memory.erase, h] using Memory.wfFrom_mono hlo (ih hm.2)
    · have hrest := ih hm.2
      have hcons : Memory.erase (e :: m) k = e :: Memory.erase m k := by simp [Memory.erase, h]
      simp only [hcons, Memory.wfFrom, Bool.and_eq_true, decide_eq_true_eq]
      exact ⟨hm.1, hrest⟩

theorem Memory.erase_ne (m : Memory) (k : Nat) : ∀ e ∈ m.erase k, e.1 ≠ k := by
  intro e he
  simpa using (List.mem_filter.mp he).2

theorem Memory.wfFrom_insert {m : Memory} {lo k : Nat} {v : Byte} (hlo : lo ≤ k) (hk : k < Config.fbBytes)
    (hv : v ≠ Memory.background) (hne : ∀ e ∈ m, e.1 ≠ k) (hm : Memory.wfFrom lo m = true) :
    Memory.wfFrom lo (Memory.insert k v m) = true := by
  induction m generalizing lo with
  | nil => simp [Memory.insert, Memory.wfFrom, hlo, hk, hv]
  | cons e m ih =>
    have he := hne e (List.mem_cons_self)
    simp only [Memory.wfFrom, Bool.and_eq_true, decide_eq_true_eq] at hm
    by_cases h : e.1 < k
    · simp only [Memory.insert, h, if_true, Memory.wfFrom, Bool.and_eq_true, decide_eq_true_eq]
      exact ⟨hm.1, ih h (fun e' he' => hne e' (List.mem_cons_of_mem _ he')) hm.2⟩
    · simp only [Memory.insert, h, if_false, Memory.wfFrom, Bool.and_eq_true, decide_eq_true_eq, bne_iff_ne]
      exact ⟨⟨⟨hlo, hk⟩, hv⟩, ⟨⟨⟨by omega, hm.1.1.2⟩, by simpa using hm.1.2⟩, hm.2⟩⟩

/-- A write keeps the canonical form. -/
theorem Memory.wf_write {m : Memory} (p : Page) (c : Column) (v : Byte) (hm : m.wf = true) :
    (m.write p c v).wf = true := by
  simp only [Memory.wf, Memory.write, Memory.store] at *
  split
  · exact Memory.wfFrom_erase _ hm
  next hv =>
    exact Memory.wfFrom_insert (Nat.zero_le _) (Memory.key_lt p c) hv (Memory.erase_ne _ _)
      (Memory.wfFrom_erase _ hm)

/-- The cleared framebuffer has the canonical form. -/
@[simp] theorem Memory.wf_zero : Memory.zero.wf = true := rfl

/-- The cells that `Memory.ofBytes` lists for n keys from `lo` on. -/
theorem Memory.wfFrom_filterMap (f : Nat → Byte) (n lo : Nat) (h : lo + n ≤ Config.fbBytes) :
    Memory.wfFrom lo ((List.range' lo n).filterMap (Memory.cell f)) = true := by
  induction n generalizing lo with
  | zero => rfl
  | succ n ih =>
    have hrest := ih (lo + 1) (by omega)
    rw [List.range'_succ, List.filterMap_cons]
    by_cases hf : f lo = Memory.background
    · simpa [Memory.cell, hf] using Memory.wfFrom_mono (Nat.le_succ lo) hrest
    · simp only [Memory.cell, hf, if_false, Memory.wfFrom, Bool.and_eq_true, decide_eq_true_eq, bne_iff_ne, ne_eq,
        not_false_eq_true, le_refl, true_and, and_true]
      exact ⟨by omega, hrest⟩

theorem Memory.lookup_filterMap (f : Nat → Byte) (n lo k : Nat) :
    Memory.lookup ((List.range' lo n).filterMap (Memory.cell f)) k =
      if lo ≤ k ∧ k < lo + n then f k else Memory.background := by
  induction n generalizing lo with
  | zero => simp [Memory.lookup]
  | succ n ih =>
    have hrest := ih (lo + 1)
    rw [List.range'_succ, List.filterMap_cons]
    by_cases hk : lo = k
    · subst hk
      by_cases hf : f lo = Memory.background
      · simp [Memory.cell, hf, hrest]
      · simp [Memory.cell, hf, Memory.lookup]
    · have hiff : (lo + 1 ≤ k ∧ k < lo + 1 + n) ↔ (lo ≤ k ∧ k < lo + (n + 1)) := by omega
      simp only [hiff] at hrest
      by_cases hf : f lo = Memory.background
      · simpa [Memory.cell, hf] using hrest
      · simpa [Memory.cell, hf, Memory.lookup, hk] using hrest

/-- The list made from any array has the canonical form. -/
theorem Memory.wf_ofBytes (f : Page → Column → Byte) : (Memory.ofBytes f).wf = true := by
  unfold Memory.ofBytes
  rw [Memory.cells, List.range_eq_range']
  exact Memory.wfFrom_filterMap (Memory.byteAt f) _ _ (Nat.zero_add _).le

/-- The list made from an array reads as that array. -/
@[simp] theorem Memory.read_ofBytes (f : Page → Column → Byte) (p : Page) (c : Column) :
    (Memory.ofBytes f).read p c = f p c := by
  have hlt := Memory.key_lt p c
  have h := Memory.key_inj.mp (Memory.key_of_lt hlt)
  unfold Memory.ofBytes
  rw [Memory.cells, List.range_eq_range', Memory.read, Memory.lookup_filterMap,
    if_pos ⟨Nat.zero_le _, by rwa [Nat.zero_add]⟩, Memory.byteAt, h.1, h.2]

theorem Memory.lookup_below {m : Memory} {lo k : Nat} (hm : Memory.wfFrom lo m = true) (hk : k < lo) :
    m.lookup k = Memory.background := by
  induction m generalizing lo with
  | nil => rfl
  | cons e m ih =>
    simp only [Memory.wfFrom, Bool.and_eq_true, decide_eq_true_eq] at hm
    have h : e.1 ≠ k := by omega
    simpa [Memory.lookup, h] using ih hm.2 (by omega)

theorem Memory.eq_of_lookup {m m' : Memory} {lo lo' : Nat} (hm : Memory.wfFrom lo m = true)
    (hm' : Memory.wfFrom lo' m' = true) (h : ∀ k, k < Config.fbBytes → m.lookup k = m'.lookup k) : m = m' := by
  induction m generalizing m' lo lo' with
  | nil =>
    cases m' with
    | nil => rfl
    | cons e m' =>
      simp only [Memory.wfFrom, Bool.and_eq_true, decide_eq_true_eq, bne_iff_ne] at hm'
      exact absurd (by simpa [Memory.lookup] using (h e.1 hm'.1.1.2).symm) hm'.1.2
  | cons e m ih =>
    have hcons := hm
    simp only [Memory.wfFrom, Bool.and_eq_true, decide_eq_true_eq, bne_iff_ne] at hm
    cases m' with
    | nil => exact absurd (by simpa [Memory.lookup] using h e.1 hm.1.1.2) hm.1.2
    | cons e' m' =>
      have hcons' := hm'
      simp only [Memory.wfFrom, Bool.and_eq_true, decide_eq_true_eq, bne_iff_ne] at hm'
      have hkey : e.1 = e'.1 := by
        rcases Nat.lt_trichotomy e.1 e'.1 with hlt | heq | hgt
        · have h1 := h e.1 hm.1.1.2
          have h2 : e'.1 ≠ e.1 := by omega
          simp only [Memory.lookup, if_true, h2, if_false, Memory.lookup_below hm'.2 (by omega : e.1 < e'.1 + 1)] at h1
          exact absurd h1 hm.1.2
        · exact heq
        · have h1 := h e'.1 hm'.1.1.2
          have h2 : e.1 ≠ e'.1 := by omega
          simp only [Memory.lookup, if_true, h2, if_false, Memory.lookup_below hm.2 (by omega : e'.1 < e.1 + 1)] at h1
          exact absurd h1.symm hm'.1.2
      have hval : e.2 = e'.2 := by simpa [Memory.lookup, hkey] using h e.1 hm.1.1.2
      have htail : m = m' := by
        refine ih hm.2 hm'.2 fun k hk => ?_
        by_cases hke : e.1 = k
        · rw [Memory.lookup_below hm.2 (by omega), Memory.lookup_below hm'.2 (by omega)]
        · have hke' : e'.1 ≠ k := by omega
          simpa [Memory.lookup, hke, hke'] using h k hk
      rw [Prod.ext hkey hval, htail]

/-- Two framebuffers in canonical form with the same bytes are the same list. -/
theorem Memory.ext_read {m m' : Memory} (hm : m.wf = true) (hm' : m'.wf = true)
    (h : ∀ p c, m.read p c = m'.read p c) : m = m' :=
  Memory.eq_of_lookup hm hm' fun k hk => by
    simpa [Memory.read, Memory.key_of_lt hk] using
      h (BitVec.ofNat 3 (k / Config.columns)) (BitVec.ofNat 7 (k % Config.columns))

end Sys2Proof.Machine
end

