-- ==== Sys2Proof/Laws/PerInstr.lean ====
section
/-! SUPPORT. The families of statements about every command as syntax. -/

namespace Sys2Proof.Laws.EncodedFields

/-- In the word of a command, bits 31:28 are its opcode (R71) and the reserved bits 27:17 are 0 (R75). -/
def Statement (i : Instr) : Prop :=
  (encode i).extractLsb' 28 4 = i.opcode ∧ (encode i).extractLsb' 17 11 = 0

theorem formatF_op (op : BitVec 4) (on : Bool) (y x : Byte) : (formatF op on y x).extractLsb' 28 4 = op := by
  apply BitVec.eq_of_getLsbD_eq
  intro i hi
  have hy : y.getLsbD (28 + i - 8) = false := BitVec.getLsbD_of_ge _ _ (by omega)
  have hx : x.getLsbD (28 + i) = false := BitVec.getLsbD_of_ge _ _ (by omega)
  have ho : (BitVec.ofBool on).getLsbD (28 + i - 16) = false := BitVec.getLsbD_of_ge _ _ (by omega)
  have h1 : 28 + i < 32 := by omega
  have h2 : ¬28 + i < 16 := by omega
  have h3 : ¬28 + i < 8 := by omega
  simp [formatF, hi, hy, hx, ho, h1, h2, h3]

theorem formatF_reserved (op : BitVec 4) (on : Bool) (y x : Byte) : (formatF op on y x).extractLsb' 17 11 = 0 := by
  apply BitVec.eq_of_getLsbD_eq
  intro i hi
  have hy : y.getLsbD (17 + i - 8) = false := BitVec.getLsbD_of_ge _ _ (by omega)
  have hx : x.getLsbD (17 + i) = false := BitVec.getLsbD_of_ge _ _ (by omega)
  have ho : (BitVec.ofBool on).getLsbD (17 + i - 16) = false := BitVec.getLsbD_of_ge _ _ (by omega)
  have h1 : 17 + i < 28 := by omega
  simp [formatF, hy, hx, ho, h1]

theorem nop : Statement .nop := ⟨formatF_op .., formatF_reserved ..⟩
theorem setpx (x y : Byte) (on : Bool) : Statement (.setpx x y on) := ⟨formatF_op .., formatF_reserved ..⟩
theorem getpx (x y : Byte) : Statement (.getpx x y) := ⟨formatF_op .., formatF_reserved ..⟩
theorem clear : Statement .clear := ⟨formatF_op .., formatF_reserved ..⟩
theorem flush : Statement .flush := ⟨formatF_op .., formatF_reserved ..⟩
theorem cmd (byte : Byte) : Statement (.cmd byte) := ⟨formatF_op .., formatF_reserved ..⟩
theorem rdbyte (col page : Byte) : Statement (.rdbyte col page) := ⟨formatF_op .., formatF_reserved ..⟩
theorem clrstat : Statement .clrstat := ⟨formatF_op .., formatF_reserved ..⟩
theorem reserved (op : BitVec 4) : Statement (.reserved op) := ⟨formatF_op .., formatF_reserved ..⟩

end Sys2Proof.Laws.EncodedFields
end

