-- ==== Sys2Proof/Laws/Transport.lean ====
section
/-! SUPPORT. What the transport port offers and what an XFER does: everything it can do, and what it leaves alone. -/

namespace Sys2Proof.Machine

/-- A byte is offered exactly while the block is busy. -/
theorem State.txValid_eq_busy (s : State) : s.txValid = s.busy := by
  cases h : s.phase <;> simp [State.txValid, State.offer, State.busy, h]

/-- The page-select byte as a number. -/
theorem pageSelect_toNat (p : Page) : (pageSelect p).toNat = 0xB0 + p.toNat := by
  have hp := p.isLt
  simp [pageSelect]
  omega

/-- A move of the walk changes PHASE, PAGE and COL and nothing else. -/
theorem State.nextPosition_frame (s : State) :
    s.nextPosition = { s with phase := s.nextPosition.phase, page := s.nextPosition.page, col := s.nextPosition.col } := by
  unfold State.nextPosition
  split <;> (try split) <;> (try split) <;> rfl

@[simp] theorem State.nextPosition_cmdbuf (s : State) : s.nextPosition.cmdbuf = s.cmdbuf := by
  rw [State.nextPosition_frame]
@[simp] theorem State.nextPosition_ill (s : State) : s.nextPosition.ill = s.ill := by
  rw [State.nextPosition_frame]
@[simp] theorem State.nextPosition_oob (s : State) : s.nextPosition.oob = s.oob := by
  rw [State.nextPosition_frame]
@[simp] theorem State.nextPosition_rdata (s : State) : s.nextPosition.rdata = s.rdata := by
  rw [State.nextPosition_frame]
@[simp] theorem State.nextPosition_fb (s : State) : s.nextPosition.fb = s.fb := by
  rw [State.nextPosition_frame]
@[simp] theorem State.nextPosition_trace (s : State) : s.nextPosition.trace = s.trace := by
  rw [State.nextPosition_frame]
@[simp] theorem State.nextPosition_cmdQueue (s : State) : s.nextPosition.cmdQueue = s.cmdQueue := by
  rw [State.nextPosition_frame]
@[simp] theorem State.nextPosition_ports (s : State) : s.nextPosition.ports = s.ports := by
  rw [State.nextPosition_frame]
@[simp] theorem State.nextPosition_upcoming (s : State) : s.nextPosition.upcoming = s.upcoming := by
  rw [State.nextPosition_frame]
@[simp] theorem State.nextPosition_resetIndex (s : State) : s.nextPosition.resetIndex = s.resetIndex := by
  rw [State.nextPosition_frame]

/-- The position after a move depends on the position before it alone. -/
theorem State.nextPosition_append (s : State) (e : TraceEntry) :
    (s.append e).nextPosition = s.nextPosition.append e := by
  cases h : s.phase with
  | data =>
    by_cases hc : s.col = lastColumn
    · by_cases hp : s.page = lastPage <;> simp [State.nextPosition, h, hc, hp] <;> rfl
    · simp [State.nextPosition, h, hc]; rfl
  | _ => simp [State.nextPosition, h] <;> rfl

/-- Everything an XFER can do: from a busy block the offered byte goes onto the trace and the walk moves on. An idle
block is left as it is. -/
theorem State.xfer_eq (s : State) :
    s.xfer = { s with
      phase := s.nextPosition.phase, page := s.nextPosition.page, col := s.nextPosition.col,
      trace := s.trace ++ s.offer.toList } := by
  cases h : s.offer with
  | none =>
    have hidle : s.phase = .idle := by
      cases hp : s.phase <;> simp [State.offer, hp] at h ⊢
    simp [State.xfer, h, State.nextPosition, hidle]
    rw [← hidle]
  | some e =>
    simp only [State.xfer, h, State.nextPosition_append, Option.toList_some]
    rw [State.append, State.nextPosition_frame]

@[simp] theorem State.xfer_cmdbuf (s : State) : s.xfer.cmdbuf = s.cmdbuf := by rw [State.xfer_eq]
@[simp] theorem State.xfer_ill (s : State) : s.xfer.ill = s.ill := by rw [State.xfer_eq]
@[simp] theorem State.xfer_oob (s : State) : s.xfer.oob = s.oob := by rw [State.xfer_eq]
@[simp] theorem State.xfer_rdata (s : State) : s.xfer.rdata = s.rdata := by rw [State.xfer_eq]
@[simp] theorem State.xfer_fb (s : State) : s.xfer.fb = s.fb := by rw [State.xfer_eq]
@[simp] theorem State.xfer_cmdQueue (s : State) : s.xfer.cmdQueue = s.cmdQueue := by rw [State.xfer_eq]
@[simp] theorem State.xfer_ports (s : State) : s.xfer.ports = s.ports := by rw [State.xfer_eq]
@[simp] theorem State.xfer_upcoming (s : State) : s.xfer.upcoming = s.upcoming := by rw [State.xfer_eq]
@[simp] theorem State.xfer_resetIndex (s : State) : s.xfer.resetIndex = s.resetIndex := by rw [State.xfer_eq]
@[simp] theorem State.xfer_trace (s : State) : s.xfer.trace = s.trace ++ s.offer.toList := by rw [State.xfer_eq]
@[simp] theorem State.xfer_phase (s : State) : s.xfer.phase = s.nextPosition.phase := by rw [State.xfer_eq]
@[simp] theorem State.xfer_page (s : State) : s.xfer.page = s.nextPosition.page := by rw [State.xfer_eq]
@[simp] theorem State.xfer_col (s : State) : s.xfer.col = s.nextPosition.col := by rw [State.xfer_eq]

end Sys2Proof.Machine
end

