-- ==== Sys2Proof/Laws/Step.lean ====
section
/-! SUPPORT. The four things a step can be, and when it is each of them. -/

namespace Sys2Proof.Machine

theorem State.action_reset {s : State} (h : s.ports.rst = true) : s.action = .reset := by
  simp [State.action, h]

theorem State.action_busy {s : State} (h : s.ports.rst = false) (hb : s.phase ≠ .idle) :
    s.action = if s.ports.txReady then .transfer else .wait := by
  simp [State.action, h, State.busy, hb, State.xferEnabled, State.txValid_eq_busy]

theorem State.action_idle {s : State} (h : s.ports.rst = false) (hb : s.phase = .idle) :
    s.action = match s.presented with
      | some w => .accept w
      | none => .wait := by
  simp only [State.action, h, State.busy, hb]
  rfl

/-- The word at the command port. -/
theorem State.presented_eq_some {s : State} {w : Word} :
    s.presented = some w ↔ s.ports.cmdValid = true ∧ s.cmdQueue.head? = some w := by
  simp [State.presented]

/-- Everything a step can be: a reset, the ACCEPT of the presented word by an idle block, an XFER of a busy one, or a
wait of either. -/
theorem step_cases {s t : State} (h : step s = .next t) :
    (s.ports.rst = true ∧ t = s.resetBlock.advancePorts) ∨
    (s.ports.rst = false ∧ s.phase = .idle ∧
      ∃ w, s.presented = some w ∧ t = execState (decode w) s.takeWord.advancePorts) ∨
    (s.ports.rst = false ∧ s.phase ≠ .idle ∧ s.ports.txReady = true ∧ t = s.xfer.advancePorts) ∨
    (s.ports.rst = false ∧ t = s.advancePorts ∧
      (s.phase = .idle ∧ s.presented = none ∨ s.phase ≠ .idle ∧ s.ports.txReady = false)) := by
  unfold step at h
  cases hr : s.ports.rst with
  | true =>
    rw [State.action_reset hr] at h
    exact .inl ⟨rfl, by simpa using h.symm⟩
  | false =>
    by_cases hb : s.phase = .idle
    · rw [State.action_idle hr hb] at h
      cases hw : s.presented with
      | none =>
        simp only [hw] at h
        exact .inr (.inr (.inr ⟨rfl, by simpa using h.symm, .inl ⟨hb, rfl⟩⟩))
      | some w =>
        simp only [hw, exec_eq] at h
        exact .inr (.inl ⟨rfl, hb, w, rfl, by simpa using h.symm⟩)
    · rw [State.action_busy hr hb] at h
      cases ht : s.ports.txReady with
      | true =>
        simp only [ht, if_true] at h
        exact .inr (.inr (.inl ⟨rfl, hb, rfl, by simpa using h.symm⟩))
      | false =>
        simp only [ht, Bool.false_eq_true, if_false] at h
        exact .inr (.inr (.inr ⟨rfl, by simpa using h.symm, .inr ⟨hb, rfl⟩⟩))

end Sys2Proof.Machine
end

