-- ==== Sys2Proof/Laws/Run.lean ====
section
/-! SUPPORT. Runs of many steps, and the input wires over time: the small laws a proof by induction on the number of
steps needs. -/

namespace Sys2Proof.Machine

@[simp] theorem State.run_zero (s : State) : s.run 0 = .next s := rfl

/-- A run of n + 1 steps is a step and then a run of n. -/
theorem State.run_succ {s t : State} (h : step s = .next t) (n : Nat) : s.run (n + 1) = t.run n := by
  have hc : Sys2Proof.core.step s = .next t := h
  have he := Host.Core.run.eq_2 Sys2Proof.core s n
  simp only [State.run]
  rw [he, hc]

/-- A run of m + n steps is a run of m and then a run of n. -/
theorem State.run_add {s t : State} {m : Nat} (n : Nat) (h : s.run m = .next t) : s.run (m + n) = t.run n := by
  induction m generalizing s with
  | zero =>
    obtain rfl : s = t := by simpa using h
    simp
  | succ m ih =>
    cases hs : step s with
    | next u =>
      rw [State.run_succ hs] at h
      rw [Nat.add_right_comm, State.run_succ hs, ih h]
    | fault r => exact nomatch r
    | refused r =>
      have hc : Sys2Proof.core.step s = .refused r := hs
      have he := Host.Core.run.eq_2 Sys2Proof.core s m
      simp only [State.run] at h
      rw [he, hc] at h
      exact nomatch h

@[simp] theorem State.wires_zero (s : State) : s.wires 0 = s.ports := rfl

/-- The wires of the next step are what the wires one step on were. -/
@[simp] theorem State.advancePorts_wires (s : State) (k : Nat) : s.advancePorts.wires k = s.wires (k + 1) := by
  unfold State.wires State.advancePorts
  cases h : s.upcoming with
  | nil => cases k <;> simp [wiresFrom, h]
  | cons q qs => rfl

/-- The wires depend on the levels now and to come, and on nothing else. -/
theorem State.wires_congr {s t : State} (hp : s.ports = t.ports) (hu : s.upcoming = t.upcoming) :
    s.wires = t.wires := by
  funext k
  rw [State.wires, State.wires, hp, hu]

/-- Every step moves the wires on by one. -/
theorem step_wires {s t : State} (h : step s = .next t) (k : Nat) : t.wires k = s.wires (k + 1) := by
  have key : t.ports = s.advancePorts.ports ∧ t.upcoming = s.advancePorts.upcoming := by
    have aux : ∀ u : State, u.ports = s.ports → u.upcoming = s.upcoming →
        u.advancePorts.ports = s.advancePorts.ports ∧ u.advancePorts.upcoming = s.advancePorts.upcoming := by
      intro u h1 h2
      unfold State.advancePorts
      rw [h2]
      cases s.upcoming <;> simp [h1, h2]
    obtain ⟨-, rfl⟩ | ⟨-, -, w, -, rfl⟩ | ⟨-, -, -, rfl⟩ | ⟨-, rfl, -⟩ := step_cases h
    · exact aux _ rfl rfl
    · obtain ⟨-, -, hp, hu, -⟩ := execState_outside (decode w) s.takeWord.advancePorts
      rw [hp, hu]
      exact aux _ rfl rfl
    · exact aux _ (by simp) (by simp)
    · exact ⟨rfl, rfl⟩
  rw [State.wires_congr key.1 key.2, State.advancePorts_wires]

/-- Wires that nothing changes any more keep their levels. -/
theorem State.wires_steady {s : State} (h : s.upcoming = []) (k : Nat) : s.wires k = s.ports := by
  cases k <;> simp [State.wires, wiresFrom, h]

/-- Levels that stay for m steps more. -/
theorem wiresFrom_replicate (m k : Nat) (p : PortInputs) (qs : List PortInputs) (h : k ≤ m) :
    wiresFrom k p (List.replicate m p ++ qs) = p := by
  induction m generalizing k with
  | zero => obtain rfl : k = 0 := by omega
            rfl
  | succ m ih =>
    cases k with
    | zero => rfl
    | succ k => simpa [List.replicate_succ, wiresFrom] using ih k (by omega)

/-- The levels after those. -/
theorem wiresFrom_after_replicate (m : Nat) (p q : PortInputs) (qs : List PortInputs) :
    wiresFrom (m + 1) p (List.replicate m p ++ q :: qs) = q := by
  induction m with
  | zero => rfl
  | succ m ih => simpa [List.replicate_succ, wiresFrom] using ih

/-- A transport that is ready in each of the next n steps. -/
theorem State.readySteps_all {s : State} {n : Nat} (h : ∀ k, k < n → (s.wires k).txReady = true) :
    s.readySteps n = n := by
  unfold State.readySteps
  rw [List.countP_eq_length.mpr (by simpa using h), List.length_range]

end Sys2Proof.Machine
end

