-- ==== Sys2Proof/Tests/Slice0.lean ====
section
/-! SUPPORT. Tests with results from the spec's own examples and vectors (30_encoding.md R80, 95_test_vectors.md), and for
every statement with hypotheses a witness that meets them. -/

namespace Sys2Proof.Tests

open Sys2Proof Sys2Proof.Machine

/-! ### Helpers -/

/-- An idle block with the all-zero framebuffer. -/
def idle : State := { State.reset with fb := Memory.zero }

/-- The cells of page bytes. -/
def cells (l : List (Nat × Nat × Byte)) : Memory := l.map fun e => (128 * e.1 + e.2.1, e.2.2)

/-- An idle block with these page bytes. -/
def withFb (l : List (Nat × Nat × Byte)) : State := { idle with fb := cells l }

/-- The ACCEPT of a word answers a state that passes a check. -/
def accept (w : Word) (s : State) (p : State → Bool) : Bool :=
  match exec (decode w) s with
  | .next t => p t
  | .fault _ => false
  | .refused _ => false

/-- One step answers a state that passes a check. -/
def oneStep (s : State) (p : State → Bool) : Bool :=
  match step s with
  | .next t => p t
  | .fault _ => false
  | .refused _ => false

/-! ### Ill-formed commands -/

theorem test_wellFormed_refuses_reserved_7 : (Instr.reserved 7).wellFormed = false := by decide
theorem test_wellFormed_refuses_reserved_0 : (Instr.reserved 0).wellFormed = false := by decide
theorem test_wellFormed_takes_reserved_8 : (Instr.reserved 8).wellFormed = true := by decide

/-! ### Decoding, from the words of R80 and 95_test_vectors.md -/

theorem test_decode_nop : decode 0x00000000 = .nop := by decide
theorem test_decode_nop_ignored_bits : decode 0x0ABCDEF1 = .nop := by decide
/-- OP 0001, ON 1, Y 00001010, X 00000101. -/
theorem test_decode_setpx : decode 0b00010000000000010000101000000101 = .setpx 5 10 true := by decide
theorem test_decode_setpx_ignored_bits : decode 0x1FFF0A05 = .setpx 5 10 true := by decide
/-- OP 0010, Y 00001010, X 00000101. -/
theorem test_decode_getpx : decode 0b00100000000000000000101000000101 = .getpx 5 10 := by decide
theorem test_decode_getpx_ignored_on : decode 0x2FFF0905 = .getpx 5 9 := by decide
theorem test_decode_clear : decode 0x30000000 = .clear := by decide
theorem test_decode_flush : decode 0x40000000 = .flush := by decide
theorem test_decode_cmd : decode 0x500000B3 = .cmd 0xB3 := by decide
theorem test_decode_cmd_ignored_y : decode 0x5001FF10 = .cmd 0x10 := by decide
/-- The column in X, the page in Y. -/
theorem test_decode_rdbyte : decode 0x6000077F = .rdbyte 127 7 := by decide
theorem test_decode_clrstat : decode 0x70000000 = .clrstat := by decide
theorem test_decode_reserved_8 : decode 0x80000000 = .reserved 8 := by decide
theorem test_decode_reserved_F : decode 0xFFFFFFFF = .reserved 15 := by decide
theorem test_decodeTableWord_short : decodeTableWord 8 0x5A0000B3 = some .nop := by decide

/-! ### The commands (95_test_vectors.md section 2) -/

/-- L2-M4. -/
theorem test_nop : accept 0x0ABCDEF1 idle (· = idle) = true := by decide
/-- L2-S5, and the rest of the byte's page as it was. -/
theorem test_setpx_clears : accept 0x10001D28 (withFb [(3, 40, 0xFF), (3, 41, 0xFF)])
    (fun t => t.fb = cells [(3, 40, 0xDF), (3, 41, 0xFF)] && !t.oob) = true := by decide
/-- L2-S9. -/
theorem test_setpx_row_64 : accept 0x10014000 (withFb [(0, 0, 0x10)])
    (fun t => t.fb = cells [(0, 0, 0x10)] && t.oob) = true := by decide
/-- L2-G3. -/
theorem test_getpx_last : accept 0x20003F7F (withFb [(1, 5, 0x04), (7, 127, 0x80)])
    (fun t => t.rdata = 0x01 && !t.oob) = true := by decide
/-- L2-G4, with a value in RDATA before. -/
theorem test_getpx_row_64 : accept 0x20004005 { idle with rdata := 0xAA }
    (fun t => t.rdata = 0x00 && t.oob) = true := by decide
/-- L2-C1. -/
theorem test_clear : accept 0x30000000 { withFb [(1, 5, 0x04)] with oob := true }
    (fun t => t.fb = [] && t.oob && t.trace = []) = true := by decide
/-- L2-F1. -/
theorem test_flush : accept 0x40000000 (withFb [(0, 0, 0x01)])
    (fun t => t.status = 0x00000011 && t.offer = some ⟨0xB0, .command⟩) = true := by decide
/-- L2-M1, to the acceptance. -/
theorem test_cmd : accept 0x500000B3 idle
    (fun t => t.status = 0x00000051 && t.offer = some ⟨0xB3, .command⟩ && t.trace = []) = true := by decide
/-- L2-M1, its one XFER. -/
theorem test_cmd_xfer : oneStep { idle with phase := .cmdout, cmdbuf := 0xB3 }
    (fun t => t.status = 0 && t.trace = [⟨0xB3, .command⟩]) = true := by decide
/-- L2-R2. -/
theorem test_rdbyte_last : accept 0x6000077F (withFb [(1, 5, 0x04), (7, 127, 0x80)])
    (fun t => t.rdata = 0x80 && !t.oob) = true := by decide
/-- L2-R3. -/
theorem test_rdbyte_page_8 : accept 0x60000805 (withFb [(0, 5, 0x04), (1, 5, 0x04)])
    (fun t => t.rdata = 0x00 && t.oob) = true := by decide
/-- L2-M7. -/
theorem test_clrstat : accept 0x70000000 { idle with ill := true, oob := true, rdata := 0x04 }
    (fun t => t.status = 0 && t.rdata = 0x04) = true := by decide
/-- L2-M5. -/
theorem test_reserved : accept 0x80000000 idle (fun t => t.status = 0x00000002 && t.fb = []) = true := by decide
/-- L2-M6. -/
theorem test_reserved_F : accept 0xFFFFFFFF { idle with ill := true } (·.ill) = true := by decide

/-! ### The flush controller (95_test_vectors.md sections 2.4 and 2.6) -/

/-- The framebuffer of section 2.4. -/
def framed : State := withFb [(0, 0, 0x01), (1, 0, 0x02), (7, 127, 0x80)]

/-- L2-F3 to L2-F4. -/
theorem test_walk_colhi : oneStep { framed with phase := .colhi }
    (fun t => t.status = 0x00000041 && t.offer = some ⟨0x01, .data⟩ && t.trace = [⟨0x10, .command⟩]) = true := by decide
/-- L2-F5 to L2-F6. -/
theorem test_walk_next_page : oneStep { framed with phase := .data, col := 127 }
    (fun t => t.status = 0x00000111 && t.offer = some ⟨0xB1, .command⟩ && t.trace = [⟨0x00, .data⟩]) = true := by decide
/-- L2-F8. -/
theorem test_walk_last_status : ({ framed with phase := .data, page := 7, col := 127 } : State).status = 0x007F0741 := by
  decide
/-- L2-F8 to L2-F9. -/
theorem test_walk_last : oneStep { framed with phase := .data, page := 7, col := 127 }
    (fun t => t.status = 0 && t.offer = none && t.trace = [⟨0x80, .data⟩]) = true := by decide
/-- The frame entries by index in section 2.4. -/
theorem test_frame_entries :
    ([0, 3, 131, 134, 917, 1047].map (frameEntry framed.fb)) =
      [⟨0xB0, .command⟩, ⟨0x01, .data⟩, ⟨0xB1, .command⟩, ⟨0x02, .data⟩, ⟨0xB7, .command⟩, ⟨0x80, .data⟩] := by decide
/-- A transport that is not ready holds the byte (R140). -/
theorem test_walk_waits : oneStep { framed with phase := .colhi, ports := ⟨false, true, false⟩ }
    (fun t => t.status = 0x00000031 && t.trace = []) = true := by decide
/-- L2-H1: the word presented during a flush is held. -/
theorem test_hold : oneStep { idle with phase := .data, col := 3, cmdQueue := [0x10010000] }
    (fun t => t.cmdQueue = [0x10010000] && t.fb = [] && t.trace = [⟨0x00, .data⟩]) = true := by decide
/-- L2-H3: a word presented at a reset is not executed by the reset step, and stays presented. -/
theorem test_reset_keeps_word : oneStep
    { idle with oob := true, rdata := 1, cmdQueue := [0x30000000], ports := ⟨true, true, true⟩ }
    (fun t => t.cmdQueue = [0x30000000] && t.status = 0 && t.rdata = 0 && t.trace = []) = true := by decide
/-- L2-H2, on three entries: a reset leaves what the trace holds. -/
theorem test_reset_keeps_trace : oneStep
    { idle with phase := .data, trace := [⟨0xB0, .command⟩, ⟨0x00, .command⟩, ⟨0x10, .command⟩],
                ports := ⟨true, true, true⟩ }
    (fun t => t.phase = .idle && t.trace = [⟨0xB0, .command⟩, ⟨0x00, .command⟩, ⟨0x10, .command⟩]) = true := by decide
/-- An accepted word leaves the queue, and the step's wires pass. -/
theorem test_accept_takes_word : oneStep
    { idle with cmdQueue := [0x10010A05, 0x40000000], upcoming := [⟨true, false, false⟩] }
    (fun t => t.fb = cells [(1, 5, 0x04)] && t.cmdQueue = [0x40000000] && t.ports = ⟨true, false, false⟩) = true := by
  decide
/-- A fetched word runs as the first command after reset. -/
theorem test_withFetchWord : oneStep (State.reset.withFetchWord 32 0x90000000) (·.ill) = true := by decide

/-! ### The host's software (95_test_vectors.md section 2.7) -/

/-- The synthetic glyphs of section 2.7, the other glyphs blank. -/
def glyphs : HostParams where
  initCommand := fun _ => 0x5A
  initValues := fun _ => []
  displayOnSeq := []
  displayOffSeq := []
  resetSettleMs := 0
  glyph := fun index size t =>
    if index = 1 ∧ size = 12 ∧ t ≤ 1 then 0xFF
    else if index = 1 ∧ size = 16 then (if t = 0 then 0x80 else if t = 1 then 0x01 else 0x00)
    else 0x00

/-- The pixels of the calls with a value. -/
def painted (l : List Software.PixelCall) (v : Bool) : List (Nat × Nat) :=
  (l.filter fun c => c.v == v).map fun c => (c.cx, c.cy)

/-- L2-H4: the twelve pixels of column 0. -/
theorem test_charCalls_12 :
    painted (Software.charCalls glyphs 0 0 0x21 12 1) true = (List.range 12).map fun r => (0, r) := by decide
/-- L2-H5: with mode 0 those are the pixels that go off. -/
theorem test_charCalls_12_mode_0 :
    painted (Software.charCalls glyphs 0 0 0x21 12 0) false = (List.range 12).map fun r => (0, r) := by decide
/-- L2-H6. -/
theorem test_charCalls_16 : painted (Software.charCalls glyphs 10 0 0x21 16 1) true = [(10, 0), (10, 15)] := by decide
/-- L2-H6c. -/
theorem test_drawChar_unsupported :
    Software.drawChar glyphs 0 0 0x21 13 1 = [] ∧ Software.drawChar glyphs 0 0 0x7F 16 1 = [] := by decide
/-- P2. -/
theorem test_fillRect : (Software.fillRect 2 6 3 9 true).map (List.map encode) = some
    [0x10010602, 0x10010702, 0x10010802, 0x10010902, 0x10010603, 0x10010703, 0x10010803, 0x10010903, 0x40000000] := by
  decide
/-- L2-H8b. -/
theorem test_fillRect_reversed : Software.fillRect 5 0 4 0 true = none := by decide
/-- L2-H9 and L2-H9b. -/
theorem test_numberText : Software.numberText 1005 3 = [0x20, 0x20, 0x35] ∧
    Software.numberText 105 3 = [0x31, 0x30, 0x35] := by decide
/-- L2-H9c and L2-H9d. -/
theorem test_numberText_zero : Software.numberText 0 3 = [0x20, 0x20, 0x30] ∧ Software.numberText 5 0 = [] := by decide
/-- L2-H10. -/
theorem test_stringSteps_wrap :
    Software.stringSteps 16 [0x41, 0x42] 120 0 = [.char 120 0 0x41, .char 0 16 0x42] := by decide
/-- L2-H11. -/
theorem test_stringSteps_overflow :
    Software.stringSteps 16 [0x41, 0x42] 120 48 = [.char 120 48 0x41, .overflowClear, .char 0 0 0x42] := by decide
/-- L2-H12. -/
theorem test_stringSteps_stop : Software.stringSteps 16 [0x41, 0x7F, 0x42] 0 0 = [.char 0 0 0x41] := by decide
/-- R180. -/
theorem test_initDisplay : Software.initDisplay glyphs =
    [.controllerResetLow, .delay 0, .controllerResetHigh] ++ List.replicate 13 (.issue (.cmd 0x5A)) ++
      [.issue .clear, .issue .flush] := by decide

/-! ### The assembler (R78 to R80) -/

/-- R80. -/
theorem test_assemble_setpx :
    Assembler.assemble ['S', 'E', 'T', 'P', 'X', ' ', '5', ',', ' ', '1', '0', ',', ' ', '1'] = some (.setpx 5 10 true) := by
  decide
/-- The mnemonic in any case, a numeral in hexadecimal. -/
theorem test_assemble_cmd : Assembler.assemble ['c', 'M', 'd', ' ', '0', 'x', 'B', '3'] = some (.cmd 0xB3) := by decide
/-- An operand that does not fit is rejected. -/
theorem test_assemble_too_large : Assembler.assemble ['C', 'M', 'D', ' ', '2', '5', '6'] = none := by decide
/-- R79. -/
theorem test_assemble_pclr :
    Assembler.assemble ['P', 'C', 'L', 'R', ' ', '5', ',', '1', '0'] = some (.setpx 5 10 false) := by decide

/-! ### Witnesses: for each statement with hypotheses, states and operands that meet them, clause by clause and at the
bounds. A step that answers a next state is written `step s = .next t` with the t it answers. -/

/-- A block in a given phase, with the all-zero framebuffer. -/
def busyAt (ph : Phase) (p : Page) (c : Column) : State := { idle with phase := ph, page := p, col := c }

/-- An idle block with a word presented. -/
def offered (w : Word) : State := { idle with cmdQueue := [w] }

/-- Levels at which the block is not reset and the transport takes bytes. -/
def ready : PortInputs := ⟨false, true, true⟩

theorem witness_DecodeAndEncodeAreInverse :
    (Instr.reserved 8).wellFormed = true ∧ (Instr.reserved 15).wellFormed = true ∧
    (Instr.setpx 255 255 true).wellFormed = true ∧ (0x7FFFFFFF : Word).toNat < 2 ^ 31 ∧
    (0x70000000 : Word).toNat < 2 ^ 31 ∧ (0x70000000 : Word) &&& ~~~usedBits (opField 0x70000000) = 0 ∧
    (0x1001FFFF : Word) &&& ~~~usedBits (opField 0x1001FFFF) = 0 := by decide
theorem witness_IgnoredBitsHaveNoEffect :
    opField 0x1FFF0A05 = opField 0x10010A05 ∧
    (0x1FFF0A05 : Word) &&& usedBits (opField 0x1FFF0A05) = 0x10010A05 &&& usedBits (opField 0x1FFF0A05) := by decide
theorem witness_StepRunsThePresentedCommand :
    (offered 0x10010A05).ports.rst = false ∧ (offered 0x10010A05).ports.cmdValid = true ∧
    (offered 0x10010A05).phase = .idle ∧ (offered 0x10010A05).cmdQueue = 0x10010A05 :: [] ∧
    decode 0x10010A05 = .setpx 5 10 true := by decide
theorem witness_AcceptAndXferNeverTogether :
    (offered 0).acceptEnabled = true ∧ (busyAt .data 7 127).xferEnabled = true ∧
    ({ idle with ports := ⟨true, true, true⟩ } : State).ports.rst = true := by decide
theorem witness_WordIsAcceptedOnlyWhenIdle :
    (offered 0x40000000).ports.rst = false ∧ (offered 0x40000000).accepted = some .flush ∧
    (offered 0x500000FF).accepted = some (.cmd 0xFF) ∧ (offered 0).accepted = some .nop ∧
    (busyAt .pgsel 0 0).ports.rst = false ∧ (busyAt .pgsel 0 0).phase ≠ .idle ∧
    (busyAt .cmdout 0 0).ports.rst = false ∧ (busyAt .cmdout 0 0).ports.txReady = true ∧
    (busyAt .cmdout 0 0).phase = .cmdout ∧ (busyAt .cmdout 0 0).page = 0 ∧ (busyAt .cmdout 0 0).col = 0 ∧
    (busyAt .data 7 127).ports.rst = false ∧
    (busyAt .data 7 127).ports.txReady = true ∧ (busyAt .data 7 127).phase = .data ∧
    (busyAt .data 7 127).page = 7 ∧ (busyAt .data 7 127).col = 127 := by decide
theorem witness_WordIsAcceptedOnlyWhenIdle_step :
    step (offered 0x40000000) = .next { busyAt .pgsel 0 0 with cmdQueue := [] } := rfl
theorem witness_WordsAreNeverLostOrReordered :
    (offered 0).accepted.isSome = true ∧ idle.accepted.isSome = false := by decide
theorem witness_WordsAreNeverLostOrReordered_step : step (offered 0) = .next idle ∧ step idle = .next idle :=
  ⟨rfl, rfl⟩
theorem witness_ResetStepFromAnyState :
    ({ busyAt .data 7 127 with ports := ⟨true, true, true⟩ } : State).ports.rst = true := by decide

/-- A flush that is reset after 1047 bytes, one before its last. -/
def almostFlushed : State :=
  { busyAt .pgsel 0 0 with upcoming := List.replicate 1046 ready ++ [⟨true, true, true⟩] }

theorem almostFlushed_wires (k : Nat) (h : k < 1047) : almostFlushed.wires k = ready :=
  wiresFrom_replicate 1046 k ready _ (by omega)

theorem witness_ResetCutsAFlushShort :
    almostFlushed.phase = .pgsel ∧ almostFlushed.page = 0 ∧ almostFlushed.col = 0 ∧ almostFlushed.NoResetFor 1047 ∧
    (almostFlushed.wires 1047).rst = true ∧ almostFlushed.readySteps 1047 < 1048 := by
  refine ⟨rfl, rfl, rfl, fun k hk => by rw [almostFlushed_wires k hk]; rfl, ?_, ?_⟩
  · have h : almostFlushed.wires 1047 = ⟨true, true, true⟩ := wiresFrom_after_replicate 1046 ready _ []
    rw [h]
  · rw [State.readySteps_all (fun k hk => by rw [almostFlushed_wires k hk]; rfl)]
    omega
theorem witness_ResetCutsAFlushShort_at_once :
    ({ busyAt .pgsel 0 0 with ports := ⟨true, true, true⟩ } : State).NoResetFor 0 ∧
    (({ busyAt .pgsel 0 0 with ports := ⟨true, true, true⟩ } : State).wires 0).rst = true ∧
    ({ busyAt .pgsel 0 0 with ports := ⟨true, true, true⟩ } : State).readySteps 0 < 1048 :=
  ⟨fun _ h => absurd h (by omega), rfl, by decide⟩
theorem witness_ResetCutsAFlushShort_cmd :
    ({ busyAt .cmdout 0 0 with ports := ⟨false, true, false⟩, upcoming := [⟨true, true, true⟩] } : State).phase =
      .cmdout ∧
    ({ busyAt .cmdout 0 0 with ports := ⟨false, true, false⟩, upcoming := [⟨true, true, true⟩] } : State).NoResetFor 1 ∧
    (({ busyAt .cmdout 0 0 with ports := ⟨false, true, false⟩, upcoming := [⟨true, true, true⟩] } : State).wires 1).rst =
      true ∧
    ({ busyAt .cmdout 0 0 with ports := ⟨false, true, false⟩, upcoming := [⟨true, true, true⟩] } : State).readySteps 1 =
      0 :=
  ⟨rfl, fun k h => by obtain rfl : k = 0 := by omega
                      rfl, rfl, by decide⟩

theorem witness_ResetCutsAFlushShort_ends :
    (busyAt .data 7 127).phase ≠ .idle ∧
    step (busyAt .data 7 127) = .next { idle with trace := [⟨0x00, .data⟩] } ∧
    ({ idle with trace := [⟨0x00, .data⟩] } : State).phase = .idle := ⟨by decide, rfl, rfl⟩

theorem witness_FsmInvariantHolds : (busyAt .data 7 127).FsmInv ∧ Reachable State.reset := by
  refine ⟨⟨by decide, by decide, by decide, by decide⟩, ?_⟩
  exact Reachable.powerOn [] ⟨false, true, true⟩ []
theorem witness_FsmInvariantHolds_step :
    step (busyAt .data 7 127) = .next { idle with trace := [⟨0x00, .data⟩] } := rfl
theorem witness_FramebufferStaysCanonical : (withFb [(0, 0, 0x01), (7, 127, 0x80)]).fb.wf = true := by decide
theorem witness_FramebufferStaysCanonical_step :
    step { withFb [(7, 127, 0x80)] with cmdQueue := [0x10003F7F] } = .next idle := rfl

/-- For each branch of StickyFlagsChangeOnlyAsTold and RdataChangesOnlyAsTold, and of FramebufferChangesOnlyAsTold, a
state whose step is that one (every step answers a next state). Columns 127 and 128, rows 63 and 64, pages 7 and 8. -/
theorem witness_accepted_branches :
    (offered 0x80000000).accepted = some (.reserved 8) ∧ (offered 0x70000000).accepted = some .clrstat ∧
    (offered 0x10013F7F).accepted = some (.setpx 127 63 true) ∧
    (offered 0x10010080).accepted = some (.setpx 128 0 true) ∧
    (offered 0x10014000).accepted = some (.setpx 0 64 true) ∧
    (offered 0x20003F7F).accepted = some (.getpx 127 63) ∧ (offered 0x20004000).accepted = some (.getpx 0 64) ∧
    (offered 0x20000080).accepted = some (.getpx 128 0) ∧ (offered 0x6000077F).accepted = some (.rdbyte 127 7) ∧
    (offered 0x60000800).accepted = some (.rdbyte 0 8) ∧ (offered 0x60000080).accepted = some (.rdbyte 128 0) ∧
    (offered 0x30000000).accepted = some .clear ∧ idle.accepted = none ∧
    ({ offered 0x80000000 with ports := ⟨true, true, true⟩ } : State).ports.rst = true := by decide
theorem witness_StickyFlagsChangeOnlyAsTold :
    step (offered 0x10014000) = .next { idle with oob := true } ∧
    step (offered 0x80000000) = .next { idle with ill := true } ∧
    step { offered 0x70000000 with ill := true, oob := true } = .next idle := ⟨rfl, rfl, rfl⟩
theorem witness_RdataChangesOnlyAsTold :
    step { withFb [(7, 127, 0x80)] with cmdQueue := [0x20003F7F] } = .next { withFb [(7, 127, 0x80)] with rdata := 1 } ∧
    step { withFb [(7, 127, 0x80)] with cmdQueue := [0x6000077F] } =
      .next { withFb [(7, 127, 0x80)] with rdata := 0x80 } := ⟨rfl, rfl⟩
theorem witness_FramebufferChangesOnlyAsTold :
    step (offered 0x10013F7F) = .next (withFb [(7, 127, 0x80)]) ∧
    step { withFb [(7, 127, 0x80)] with cmdQueue := [0x30000000] } = .next idle := ⟨rfl, rfl⟩
theorem witness_TraceOnlyGrowsByXfer :
    step (busyAt .pgsel 0 0) = .next { busyAt .collo 0 0 with trace := [⟨0xB0, .command⟩] } := rfl
/-- From an idle block whose CMDBUF is 0x5A, a CMD leads into CMDOUT with its own byte. -/
theorem witness_CmdbufIsUnseenOutsideCmdout_cmd :
    ({ offered 0x500000B3 with cmdbuf := 0x5A } : State).phase ≠ .cmdout ∧
    step { offered 0x500000B3 with cmdbuf := 0x5A } = .next { busyAt .cmdout 0 0 with cmdbuf := 0xB3 } :=
  ⟨by decide, rfl⟩
theorem witness_CmdbufIsUnseenOutsideCmdout :
    (busyAt .data 7 127).phase ≠ .cmdout ∧ (busyAt .cmdout 0 0).phase = .cmdout := by decide
theorem witness_StatusReadsTheFsm :
    (busyAt .data 2 5).phase = .data ∧ (busyAt .data 2 5).page = 2 ∧ (busyAt .data 2 5).col = 5 ∧
    (busyAt .data 2 5).ill = false ∧ (busyAt .data 2 5).oob = false := by decide
theorem witness_TransportPortFollowsTheTable :
    idle.phase = .idle ∧ (busyAt .pgsel 7 0).phase = .pgsel ∧ (busyAt .collo 7 0).phase = .collo ∧
    (busyAt .colhi 7 0).phase = .colhi ∧ (busyAt .data 7 127).phase = .data ∧ (busyAt .cmdout 0 0).phase = .cmdout ∧
    (offered 0).phase = idle.phase ∧ (offered 0).page = idle.page ∧ (offered 0).col = idle.col ∧
    (offered 0).cmdbuf = idle.cmdbuf ∧ (offered 0).fb = idle.fb := by decide
theorem witness_XferNeedsAReadyTransport :
    (busyAt .pgsel 0 0).ports.rst = false ∧ (busyAt .pgsel 0 0).xferEnabled = true ∧
    ({ busyAt .pgsel 0 0 with ports := ⟨false, true, false⟩ } : State).ports.rst = false ∧
    ({ busyAt .pgsel 0 0 with ports := ⟨false, true, false⟩ } : State).phase ≠ .idle ∧
    ({ busyAt .pgsel 0 0 with ports := ⟨false, true, false⟩ } : State).ports.txReady = false := by decide
/-- The rows of R141: pages 6 and 7, columns 126 and 127. -/
theorem witness_WalkMovesByTheTable :
    (∀ ph ∈ [Phase.pgsel, .collo, .colhi, .data, .cmdout],
      (busyAt ph 7 0).ports.rst = false ∧ (busyAt ph 7 0).ports.txReady = true ∧ (busyAt ph 7 0).phase ≠ .idle ∧
      (busyAt ph 7 0).phase = ph ∧ (busyAt ph 7 0).col = 0) ∧
    (busyAt .cmdout 0 0).page = 0 ∧ (busyAt .data 7 126).col.toNat < 127 ∧ (busyAt .data 6 127).col = 127 ∧ (busyAt .data 6 127).page.toNat < 7 ∧
    (busyAt .data 7 127).col = 127 ∧ (busyAt .data 7 127).page = 7 := by decide
theorem witness_WalkMovesByTheTable_moves :
    step (offered 0x40000000) = .next (busyAt .pgsel 0 0) ∧
    ((busyAt .pgsel 0 0).phase, (busyAt .pgsel 0 0).page, (busyAt .pgsel 0 0).col) ≠
      ((offered 0x40000000).phase, (offered 0x40000000).page, (offered 0x40000000).col) := ⟨rfl, by decide⟩

theorem flushing_wires (k : Nat) : (busyAt .pgsel 0 0).wires k = ready := State.wires_steady rfl k

/-- The hypotheses of FlushSendsItsFrame's first clause and of FlushStartsTheWalk's, at both ends of their range. -/
theorem witness_FlushSendsItsFrame (n : Nat) (h : n = 0 ∨ n = 1047) :
    (busyAt .pgsel 0 0).phase = .pgsel ∧ (busyAt .pgsel 0 0).page = 0 ∧ (busyAt .pgsel 0 0).col = 0 ∧
    (busyAt .pgsel 0 0).NoResetFor n ∧ (busyAt .pgsel 0 0).readySteps n < 1048 := by
  refine ⟨rfl, rfl, rfl, fun k _ => by rw [flushing_wires]; rfl, ?_⟩
  rw [State.readySteps_all (fun k _ => by rw [flushing_wires]; rfl)]
  omega
theorem witness_FlushSendsItsFrame_last :
    (busyAt .pgsel 0 0).NoResetFor 1048 ∧ (busyAt .pgsel 0 0).readySteps 1047 = 1047 ∧
    ((busyAt .pgsel 0 0).wires 1047).txReady = true :=
  ⟨fun k _ => by rw [flushing_wires]; rfl,
   State.readySteps_all (fun k _ => by rw [flushing_wires]; rfl), by rw [flushing_wires]; rfl⟩
/-- Entries of each kind at the ends of the frame, as FlushSendsItsFrame and FrameLaws take them. -/
theorem witness_FrameLaws :
    917 < 1048 ∧ 917 % 131 = 0 ∧ 918 % 131 = 1 ∧ 919 % 131 = 2 ∧ 3 ≤ 920 % 131 ∧ 1047 < 1048 ∧ 3 ≤ 1047 % 131 ∧
    (∀ (p : Page) (c : Column), Memory.zero.read p c = Memory.zero.read p c) := by
  refine ⟨by decide, by decide, by decide, by decide, by decide, by decide, by decide, fun _ _ => rfl⟩
theorem witness_CommandStreamRunsInOrder :
    (∀ i ∈ [Instr.setpx 5 10 true, .flush, .reserved 15], i.wellFormed = true) ∧
    ({ idle with cmdQueue := [0x10010A05, 0x40000000, 0xF0000000] } : State).phase = .idle ∧
    ({ idle with cmdQueue := [0x10010A05, 0x40000000, 0xF0000000] } : State).Cooperative ∧
    ({ idle with cmdQueue := [0x10010A05, 0x40000000, 0xF0000000] } : State).cmdQueue =
      [Instr.setpx 5 10 true, .flush, .reserved 15].map encode ++ [] :=
  ⟨by decide, rfl, ⟨rfl, rfl⟩, by decide⟩

theorem witness_NopChangesNothing : (0x0FFFFFFF : Word).toNat < 2 ^ 28 := by decide
/-- SetpxWritesItsPixel, GetpxReadsItsPixel, OutOfRangeIsSilent, SetpxLaws, GetpxLaws: coordinates on both sides of each
bound. -/
theorem witness_pixel_bounds :
    (127#8).toNat < 128 ∧ (63#8).toNat < 64 ∧ ¬((128#8).toNat < 128 ∧ (63#8).toNat < 64) ∧
    ¬((127#8).toNat < 128 ∧ (64#8).toNat < 64) := by decide
/-- RdbyteReadsItsByte, OutOfRangeIsSilent, RdbyteLaws. -/
theorem witness_byte_bounds :
    (127#8).toNat < 128 ∧ (7#8).toNat < 8 ∧ ¬((128#8).toNat < 128 ∧ (7#8).toNat < 8) ∧
    ¬((127#8).toNat < 128 ∧ (8#8).toNat < 8) ∧ 7 < 8 := by decide
theorem witness_SetpxLaws :
    exec (.setpx 127 63 true) idle = .next (withFb [(7, 127, 0x80)]) ∧ (126, 63) ≠ ((127#8).toNat, (63#8).toNat) ∧
    exec (.setpx 128 63 true) idle = .next { idle with oob := true } ∧ ((127#8, 63#8) : Byte × Byte) ≠ (127, 62) :=
  ⟨rfl, by decide, rfl, by decide⟩
theorem witness_ClearZeroesEveryByte :
    Instr.nop ≠ .clear ∧ (∀ x y on, Instr.nop ≠ .setpx x y on) ∧ exec .nop idle = .next idle ∧
    exec (.setpx 127 63 true) idle = .next (withFb [(7, 127, 0x80)]) ∧
    ¬(inRange 127 63 = true ∧ (7 : Page) = pageOf 63 ∧ (127 : Column) = columnOf 127 ∧ 6 = bitOf 63) ∧
    exec (.setpx 128 63 true) idle = .next { idle with oob := true } ∧ ¬inRange 128 63 = true :=
  ⟨by decide, fun _ _ _ => by simp, rfl, rfl, by decide, rfl, by decide⟩
theorem witness_FlushStartsTheWalk : idle.phase = .idle := rfl
theorem witness_CmdSendsItsByte :
    exec (.cmd 0xB3) idle = .next { busyAt .cmdout 0 0 with cmdbuf := 0xB3 } ∧
    ({ busyAt .cmdout 0 0 with cmdbuf := 0xB3 } : State).ports.rst = false ∧
    ({ busyAt .cmdout 0 0 with cmdbuf := 0xB3 } : State).ports.txReady = true := ⟨rfl, rfl, rfl⟩
theorem witness_ReservedSetsIllOnly :
    (0x80000000 : Word).getLsbD 31 = true ∧ (0xFFFFFFFF : Word).getLsbD 31 = true ∧ 8 ≤ (8#4).toNat ∧
    8 ≤ (15#4).toNat := by decide
theorem witness_PixelsAndTriplesAreOneToOne :
    inRange 127 63 = true ∧ inRange 0 0 = true ∧ inRange 127 64 = false ∧ 7 < 8 := by decide
theorem witness_IdempotentCommands :
    exec (.getpx 128 0) idle = .next { idle with oob := true } ∧
    exec (.rdbyte 127 7) (withFb [(7, 127, 0x80)]) = .next { withFb [(7, 127, 0x80)] with rdata := 0x80 } :=
  ⟨rfl, rfl⟩
theorem witness_FillRectSetsItsRectangle :
    127 ≤ 127 ∧ 63 ≤ 300 ∧ idle.phase = .idle ∧ ¬(5 ≤ 4 ∧ 0 ≤ 0) ∧ 127 < 128 ∧ 63 < 64 ∧
    [Instr.setpx 3 4 true, .setpx 3 3 true].Perm [.setpx 3 3 true, .setpx 3 4 true] := by decide
theorem witness_DrawCharPaintsTheCell :
    ((12 = 12 ∨ 12 = 16 ∨ 12 = 24) ∧ 0x20 ≤ 0x20 ∧ 0x7E ≤ 0x7E) ∧
    ¬(13 = 12 ∨ 13 = 16 ∨ 13 = 24) ∧ 0x1F < 0x20 ∧ 0x7E < 0x7F :=
  ⟨by decide, by decide, by decide, by decide⟩
theorem witness_DrawNumberCornerCases : 2 < 3 ∧ (Software.numberText 7 3)[2]? = some 0x37 := by decide
/-- At size 16: the last column that fits and the first that does not, the last row that fits and the first that does
not, after a wrap and without one. -/
theorem witness_DrawStringWrapsAndOverflows :
    0x20 ≤ 0x7E ∧ 120 + 16 / 2 ≤ 128 ∧ 48 + 16 ≤ 64 ∧ 128 < 121 + 16 / 2 ∧ 32 + 16 + 16 ≤ 64 ∧
    (if 128 < 121 + 16 / 2 then 64 < 33 + 16 + 16 else 64 < 33 + 16) ∧
    (if 128 < 120 + 16 / 2 then 64 < 49 + 16 + 16 else 64 < 49 + 16) := by decide
theorem witness_DrawStringAdvancesByTheCell :
    (∀ ch ∈ [0x20, 0x7E], 0x20 ≤ ch ∧ ch ≤ 0x7E) ∧ 112 + [0x20, 0x7E].length * (16 / 2) ≤ 128 ∧ 48 + 16 ≤ 64 := by
  decide
theorem witness_FlushPolicyOfTheHost : Software.fillRect 3 3 3 3 true = some [.setpx 3 3 true, .flush] := by decide
theorem witness_InitializeSendsOneZeroFrame : idle.phase = .idle := rfl
theorem witness_PseudoInstructionsExpandToSetpx : 255 ≤ 255 ∧ 1 ≤ 1 := by decide

end Sys2Proof.Tests
end

section
/-! PROOFS. A step as a total function, and what a step is to the command it accepts. -/

namespace Sys2Proof.Machine

/-- The state one step leads to. -/
def stepState (s : State) : State :=
  match s.action with
  | .reset => s.resetBlock.advancePorts
  | .accept w => execState (decode w) s.takeWord.advancePorts
  | .transfer => s.xfer.advancePorts
  | .wait => s.advancePorts

/-- Every step answers that state (R200). -/
theorem step_eq (s : State) : step s = .next (stepState s) := by
  cases h : s.action <;> simp [step, stepState, h, exec_eq]

theorem State.accepted_of_presented {s : State} {w : Word} (hr : s.ports.rst = false) (hidle : s.phase = .idle)
    (hw : s.presented = some w) : s.accepted = some (decode w) := by
  simp [State.accepted, State.action_idle hr hidle, hw]

theorem State.accepted_of_idle_none {s : State} (hr : s.ports.rst = false) (hidle : s.phase = .idle)
    (hw : s.presented = none) : s.accepted = none := by
  simp [State.accepted, State.action_idle hr hidle, hw]

theorem State.accepted_of_busy {s : State} (hr : s.ports.rst = false) (hbusy : s.phase ≠ .idle) :
    s.accepted = none := by
  cases ht : s.ports.txReady <;> simp [State.accepted, State.action_busy hr hbusy, ht]

/-- `step_cases` by the command accepted: a reset, the ACCEPT of a command, or a step that accepts none and is an XFER
or a wait. -/
theorem step_cases_accepted {s t : State} (h : step s = .next t) :
    (s.ports.rst = true ∧ t = s.resetBlock.advancePorts) ∨
    (s.ports.rst = false ∧ ∃ i, s.accepted = some i ∧ t = execState i s.takeWord.advancePorts) ∨
    (s.ports.rst = false ∧ s.accepted = none ∧ (t = s.xfer.advancePorts ∨ t = s.advancePorts)) := by
  obtain hreset | ⟨hr, hidle, w, hw, ht⟩ | ⟨hr, hbusy, -, ht⟩ | ⟨hr, ht, ⟨hidle, hw⟩ | ⟨hbusy, -⟩⟩ := step_cases h
  · exact .inl hreset
  · exact .inr (.inl ⟨hr, decode w, State.accepted_of_presented hr hidle hw, ht⟩)
  · exact .inr (.inr ⟨hr, State.accepted_of_busy hr hbusy, .inl ht⟩)
  · exact .inr (.inr ⟨hr, State.accepted_of_idle_none hr hidle hw, .inr ht⟩)
  · exact .inr (.inr ⟨hr, State.accepted_of_busy hr hbusy, .inr ht⟩)

/-- SETPX as one record: FB and OOB, and nothing else (R101). -/
theorem execState_setpx (x y : Byte) (on : Bool) (s : State) :
    execState (.setpx x y on) s = { s with
      fb := if inRange x y then
          s.fb.write (pageOf y) (columnOf x) (setBits (s.fb.read (pageOf y) (columnOf x)) (maskOf y) on)
        else s.fb,
      oob := s.oob || !inRange x y } := by
  cases h : inRange x y <;> simp [execState, h, State.writeByte, State.setOob, State.readByte]

/-- GETPX as one record: RDATA and OOB, and nothing else (R103). -/
theorem execState_getpx (x y : Byte) (s : State) :
    execState (.getpx x y) s = { s with
      rdata := if inRange x y then (if s.fb.pixel x.toNat y.toNat then 0x01 else 0x00) else 0x00,
      oob := s.oob || !inRange x y } := by
  cases h : inRange x y
  · simp [execState, h, State.setOob, State.setRdata]
  · simp [execState, h, State.setRdata, State.readByte, pixelBit_eq]
    rfl

/-- RDBYTE as one record: RDATA and OOB, and nothing else (R105). -/
theorem execState_rdbyte (c p : Byte) (s : State) :
    execState (.rdbyte c p) s = { s with
      rdata := if byteInRange c p then s.fb.read (pageIndex p) (columnOf c) else 0x00,
      oob := s.oob || !byteInRange c p } := by
  cases h : byteInRange c p <;> simp [execState, h, State.setOob, State.setRdata, State.readByte]

end Sys2Proof.Machine
end

section
/-! PROOFS. R32's table: the byte and kind offered in each busy PHASE. -/

namespace Sys2Proof.Machine

theorem State.offer_of_pgsel {s : State} (hs : s.phase = .pgsel) : s.offer = some ⟨pageSelect s.page, .command⟩ := by
  simp [State.offer, hs]

theorem State.offer_of_collo {s : State} (hs : s.phase = .collo) : s.offer = some ⟨0x00, .command⟩ := by
  simp [State.offer, hs]

theorem State.offer_of_colhi {s : State} (hs : s.phase = .colhi) : s.offer = some ⟨0x10, .command⟩ := by
  simp [State.offer, hs]

theorem State.offer_of_data {s : State} (hs : s.phase = .data) : s.offer = some ⟨s.fb.read s.page s.col, .data⟩ := by
  simp [State.offer, hs, State.readByte]

theorem State.offer_of_cmdout {s : State} (hs : s.phase = .cmdout) : s.offer = some ⟨s.cmdbuf, .command⟩ := by
  simp [State.offer, hs]

end Sys2Proof.Machine
end

section
/-! PROOFS. R26: the FSM invariants. They speak of the FSM's position alone, and a position at the origin meets them in
every phase; so the page walk is the one case with content. -/

namespace Sys2Proof.Machine

theorem Phase.code_named (ph : Phase) : ph.code ≠ 6 ∧ ph.code ≠ 7 := by
  cases ph <;> decide

theorem State.FsmInv.of_origin {s : State} (hp : s.page = 0) (hc : s.col = 0) : s.FsmInv where
  idle_at_origin _ := ⟨hp, hc⟩
  framing_at_column_zero _ := hc
  cmdout_at_origin _ := ⟨hp, hc⟩
  no_unnamed_phase := s.phase.code_named

theorem State.FsmInv.of_framing {s : State} (hph : s.phase = .pgsel ∨ s.phase = .collo ∨ s.phase = .colhi)
    (hc : s.col = 0) : s.FsmInv where
  idle_at_origin h := by simp [h] at hph
  framing_at_column_zero _ := hc
  cmdout_at_origin h := by simp [h] at hph
  no_unnamed_phase := s.phase.code_named

theorem State.FsmInv.of_data {s : State} (hph : s.phase = .data) : s.FsmInv where
  idle_at_origin h := by simp [hph] at h
  framing_at_column_zero h := by simp [hph] at h
  cmdout_at_origin h := by simp [hph] at h
  no_unnamed_phase := s.phase.code_named

/-- The invariants depend on PHASE, PAGE and COL alone. -/
theorem State.FsmInv.congr {s t : State} (hs : s.FsmInv) (hph : t.phase = s.phase) (hp : t.page = s.page)
    (hc : t.col = s.col) : t.FsmInv where
  idle_at_origin := by simpa [hph, hp, hc] using hs.idle_at_origin
  framing_at_column_zero := by simpa [hph, hc] using hs.framing_at_column_zero
  cmdout_at_origin := by simpa [hph, hp, hc] using hs.cmdout_at_origin
  no_unnamed_phase := t.phase.code_named

theorem State.FsmInv.advancePorts {s : State} (hs : s.FsmInv) : s.advancePorts.FsmInv :=
  hs.congr (by simp) (by simp) (by simp)

/-- R141's walk keeps the invariants. -/
theorem State.FsmInv.nextPosition {s : State} (hs : s.FsmInv) : s.nextPosition.FsmInv := by
  cases hph : s.phase with
  | idle => simpa [State.nextPosition, hph] using hs
  | pgsel =>
    have hcol : s.col = 0 := hs.framing_at_column_zero (.inl hph)
    exact .of_framing (by simp [State.nextPosition, hph]) (by simp [State.nextPosition, hph, hcol])
  | collo =>
    have hcol : s.col = 0 := hs.framing_at_column_zero (.inr (.inl hph))
    exact .of_framing (by simp [State.nextPosition, hph]) (by simp [State.nextPosition, hph, hcol])
  | colhi => exact .of_data (by simp [State.nextPosition, hph])
  | data =>
    by_cases hc : s.col = lastColumn
    · by_cases hp : s.page = lastPage
      · exact .of_origin (by simp [State.nextPosition, hph, hc, hp]) (by simp [State.nextPosition, hph, hc, hp])
      · exact .of_framing (by simp [State.nextPosition, hph, hc, hp]) (by simp [State.nextPosition, hph, hc, hp])
    · exact .of_data (by simp [State.nextPosition, hph, hc])
  | cmdout => exact .of_origin (by simp [State.nextPosition, hph]) (by simp [State.nextPosition, hph])

theorem State.FsmInv.xfer {s : State} (hs : s.FsmInv) : s.xfer.FsmInv :=
  hs.nextPosition.congr s.xfer_phase s.xfer_page s.xfer_col

/-- FLUSH and CMD start at the origin; every other command leaves the position where it was. -/
theorem State.FsmInv.execState {s : State} (hs : s.FsmInv) (i : Instr) : (execState i s).FsmInv := by
  cases i with
  | flush => exact .of_origin rfl rfl
  | cmd byte => exact .of_origin rfl rfl
  | setpx x y on => rw [execState_setpx]; exact hs.congr rfl rfl rfl
  | getpx x y => rw [execState_getpx]; exact hs.congr rfl rfl rfl
  | rdbyte c p => rw [execState_rdbyte]; exact hs.congr rfl rfl rfl
  | nop | clear | clrstat | reserved op => exact hs.congr rfl rfl rfl

theorem State.FsmInv.step {s t : State} (hs : s.FsmInv) (h : step s = .next t) : t.FsmInv := by
  obtain ⟨-, rfl⟩ | ⟨-, i, -, rfl⟩ | ⟨-, -, rfl | rfl⟩ := step_cases_accepted h
  · exact .of_origin (by simp) (by simp)
  · exact (hs.congr (by simp) (by simp) (by simp)).execState i
  · exact hs.xfer.advancePorts
  · exact hs.advancePorts

theorem Reachable.fsmInv {s : State} (h : Reachable s) : s.FsmInv := by
  induction h with
  | powerOn words now later => exact .of_origin rfl rfl
  | step _ hstep ih => exact ih.step hstep

/-- Settles O14: each operation of the state keeps the invariants, so every step and every run does. -/
theorem fsmInvariantHolds : Obligations.FsmInvariantHolds :=
  ⟨fun _ _ hs h => hs.step h, fun _ h => h.fsmInv⟩

end Sys2Proof.Machine
end

section
/-! PROOFS. R30, R31: what each step makes of ILL, OOB and RDATA. -/

namespace Sys2Proof.Machine

theorem inRange_eq (x y : Byte) : inRange x y = (decide (x.toNat < 128) && decide (y.toNat < 64)) := rfl

theorem byteInRange_eq (c p : Byte) : byteInRange c p = (decide (c.toNat < 128) && decide (p.toNat < 8)) := rfl

/-- Settles O18: by the kind of step, and for an ACCEPT by the command. -/
theorem stickyFlagsChangeOnlyAsTold : Obligations.StickyFlagsChangeOnlyAsTold := by
  intro s t h
  obtain ⟨hr, rfl⟩ | ⟨hr, i, hi, rfl⟩ | ⟨hr, hi, rfl | rfl⟩ := step_cases_accepted h
  · simp [hr]
  · cases i with
    | setpx x y on => simp [hr, hi, execState_setpx, inRange_eq]
    | getpx x y => simp [hr, hi, execState_getpx, inRange_eq]
    | rdbyte c p => simp [hr, hi, execState_rdbyte, byteInRange_eq]
    | nop | clear | flush | cmd byte | clrstat | reserved op => simp [hr, hi, execState]
  · simp [hr, hi]
  · simp [hr, hi]

/-- Settles O19: by the kind of step, and for an ACCEPT by the command. -/
theorem rdataChangesOnlyAsTold : Obligations.RdataChangesOnlyAsTold := by
  intro s t h
  obtain ⟨hr, rfl⟩ | ⟨hr, i, hi, rfl⟩ | ⟨hr, hi, rfl | rfl⟩ := step_cases_accepted h
  · simp [hr]
  · cases i with
    | setpx x y on => simp [hr, hi, execState_setpx]
    | getpx x y => simp [hr, hi, execState_getpx, inRange_eq]
    | rdbyte c p => simp [hr, hi, execState_rdbyte, byteInRange_eq, pageIndex_eq, columnOf_eq]
    | nop | clear | flush | cmd byte | clrstat | reserved op => simp [hr, hi, execState]
  · simp [hr, hi]
  · simp [hr, hi]

end Sys2Proof.Machine
end

section
/-! PROOFS. R27: CMDBUF is seen in CMDOUT alone. The states that differ in CMDBUF at most, and not in CMDOUT, form a
relation that every operation of a step keeps. -/

namespace Sys2Proof.Machine

/-- The second state is the first one but for CMDBUF, and in CMDOUT the first one itself. -/
def State.SameButUnseenCmdbuf (s u : State) : Prop :=
  ∃ b, u = s.setCmdbuf b ∧ (s.phase = .cmdout → b = s.cmdbuf)

theorem State.SameButUnseenCmdbuf.refl (s : State) : s.SameButUnseenCmdbuf s := ⟨s.cmdbuf, rfl, fun _ => rfl⟩

theorem State.SameButUnseenCmdbuf.of_ne_cmdout {s : State} (hs : s.phase ≠ .cmdout) (b : Byte) :
    s.SameButUnseenCmdbuf (s.setCmdbuf b) :=
  ⟨b, rfl, fun h => absurd h hs⟩

theorem State.SameButUnseenCmdbuf.eq_of_cmdout {s u : State} (h : s.SameButUnseenCmdbuf u)
    (hs : s.phase = .cmdout) : u = s := by
  obtain ⟨b, rfl, hb⟩ := h
  rw [hb hs]
  rfl

theorem State.offer_setCmdbuf {s : State} (hs : s.phase ≠ .cmdout) (b : Byte) :
    (s.setCmdbuf b).offer = s.offer := by
  cases hph : s.phase with
  | cmdout => exact absurd hph hs
  | idle | pgsel | collo | colhi | data => simp [State.offer, hph, State.readByte]

theorem State.action_setCmdbuf (s : State) (b : Byte) : (s.setCmdbuf b).action = s.action := by
  have hxfer : (s.setCmdbuf b).xferEnabled = s.xferEnabled := by
    simp [State.xferEnabled, State.txValid_eq_busy, State.busy]
  rw [State.action, State.action, hxfer]
  rfl

theorem State.advancePorts_setCmdbuf (s : State) (b : Byte) :
    (s.setCmdbuf b).advancePorts = s.advancePorts.setCmdbuf b := by
  rw [State.advancePorts_eq, State.advancePorts_eq]
  rfl

theorem State.nextPosition_setCmdbuf (s : State) (b : Byte) :
    (s.setCmdbuf b).nextPosition = s.nextPosition.setCmdbuf b := by
  cases hph : s.phase with
  | data =>
    by_cases hc : s.col = lastColumn
    · by_cases hp : s.page = lastPage <;> simp [State.nextPosition, hph, hc, hp] <;> rfl
    · simp [State.nextPosition, hph, hc]; rfl
  | idle | pgsel | collo | colhi | cmdout => simp [State.nextPosition, hph] <;> rfl

theorem State.nextPosition_phase_ne_cmdout (s : State) : s.nextPosition.phase ≠ .cmdout := by
  cases hph : s.phase with
  | data =>
    by_cases hc : s.col = lastColumn
    · by_cases hp : s.page = lastPage <;> simp [State.nextPosition, hph, hc, hp]
    · simp [State.nextPosition, hph, hc]
  | idle | pgsel | collo | colhi | cmdout => simp [State.nextPosition, hph]

theorem State.SameButUnseenCmdbuf.advancePorts {s u : State} (h : s.SameButUnseenCmdbuf u) :
    s.advancePorts.SameButUnseenCmdbuf u.advancePorts := by
  obtain ⟨b, rfl, hb⟩ := h
  exact ⟨b, s.advancePorts_setCmdbuf b, by simpa using hb⟩

theorem State.SameButUnseenCmdbuf.takeWord {s u : State} (h : s.SameButUnseenCmdbuf u) :
    s.takeWord.SameButUnseenCmdbuf u.takeWord := by
  obtain ⟨b, rfl, hb⟩ := h
  exact ⟨b, rfl, hb⟩

theorem State.SameButUnseenCmdbuf.resetBlock {s u : State} (h : s.SameButUnseenCmdbuf u) :
    s.resetBlock.SameButUnseenCmdbuf u.resetBlock := by
  obtain ⟨b, rfl, -⟩ := h
  exact .refl s.resetBlock

theorem State.SameButUnseenCmdbuf.xfer {s u : State} (h : s.SameButUnseenCmdbuf u) :
    s.xfer.SameButUnseenCmdbuf u.xfer := by
  by_cases hs : s.phase = .cmdout
  · rw [h.eq_of_cmdout hs]
    exact .refl s.xfer
  · obtain ⟨b, rfl, -⟩ := h
    have hxfer : (s.setCmdbuf b).xfer = s.xfer.setCmdbuf b := by
      rw [State.xfer_eq, State.xfer_eq, State.offer_setCmdbuf hs, State.nextPosition_setCmdbuf]
      rfl
    rw [hxfer]
    exact .of_ne_cmdout (by simpa using s.nextPosition_phase_ne_cmdout) b

/-- CMD overwrites CMDBUF; every other command carries it along and leads into CMDOUT from CMDOUT alone. -/
theorem State.SameButUnseenCmdbuf.execState {s u : State} (h : s.SameButUnseenCmdbuf u) (i : Instr) :
    (execState i s).SameButUnseenCmdbuf (execState i u) := by
  obtain ⟨b, rfl, hb⟩ := h
  cases i with
  | cmd byte => exact .refl (Machine.execState (.cmd byte) s)
  | flush => exact .of_ne_cmdout (by simp [Machine.execState]) b
  | setpx x y on => simp only [execState_setpx]; exact ⟨b, rfl, hb⟩
  | getpx x y => simp only [execState_getpx]; exact ⟨b, rfl, hb⟩
  | rdbyte c p => simp only [execState_rdbyte]; exact ⟨b, rfl, hb⟩
  | nop | clear | clrstat | reserved op => exact ⟨b, rfl, hb⟩

theorem State.SameButUnseenCmdbuf.stepState {s u : State} (h : s.SameButUnseenCmdbuf u) :
    (stepState s).SameButUnseenCmdbuf (stepState u) := by
  have haction : u.action = s.action := by
    obtain ⟨b, rfl, -⟩ := h
    exact s.action_setCmdbuf b
  unfold Machine.stepState
  rw [haction]
  cases s.action with
  | reset => exact h.resetBlock.advancePorts
  | accept w => exact h.takeWord.advancePorts.execState (decode w)
  | transfer => exact h.xfer.advancePorts
  | wait => exact h.advancePorts

/-- Settles O22: the two states step to states that are again the same but for an unseen CMDBUF. -/
theorem cmdbufIsUnseenOutsideCmdout : Obligations.CmdbufIsUnseenOutsideCmdout := by
  refine ⟨fun s b hs => ?_, fun _ _ => ⟨rfl, rfl⟩, fun _ => State.offer_of_cmdout⟩
  obtain ⟨b', hstep, hb'⟩ := (State.SameButUnseenCmdbuf.of_ne_cmdout hs b).stepState
  exact ⟨stepState s, b', step_eq s, (step_eq _).trans (congrArg _ hstep), hb', State.offer_setCmdbuf hs b⟩

end Sys2Proof.Machine
end

section
/-! PROOFS. R21: pixels and (column, page, bit) triples. -/

namespace Sys2Proof.Machine

/-- The X that names a column. -/
def xOfColumn (c : Column) : Byte := c.setWidth 8

/-- The Y that names a bit of a page. -/
def yOfBit (p : Page) (b : Nat) : Byte := BitVec.ofNat 8 (8 * p.toNat + b)

theorem xOfColumn_toNat (c : Column) : (xOfColumn c).toNat = c.toNat := by
  have hc := c.isLt
  simp only [xOfColumn, BitVec.toNat_setWidth]
  omega

theorem yOfBit_toNat (p : Page) {b : Nat} (hb : b < 8) : (yOfBit p b).toNat = 8 * p.toNat + b := by
  have hp := p.isLt
  simp only [yOfBit, BitVec.toNat_ofNat]
  omega

theorem inRange_xOfColumn_yOfBit (c : Column) (p : Page) {b : Nat} (hb : b < 8) :
    inRange (xOfColumn c) (yOfBit p b) = true := by
  have hc := c.isLt
  have hp := p.isLt
  rw [inRange_iff, xOfColumn_toNat, yOfBit_toNat p hb]
  omega

theorem xOfColumn_columnOf {x : Byte} (hx : x.toNat < 128) : xOfColumn (columnOf x) = x :=
  BitVec.eq_of_toNat_eq (by rw [xOfColumn_toNat, columnOf_toNat hx])

theorem yOfBit_pageOf_bitOf {y : Byte} (hy : y.toNat < 64) : yOfBit (pageOf y) (bitOf y) = y := by
  apply BitVec.eq_of_toNat_eq
  rw [yOfBit_toNat _ (bitOf_lt y), pageOf_toNat hy, bitOf_eq]
  exact Nat.div_add_mod y.toNat 8

theorem columnOf_xOfColumn (c : Column) : columnOf (xOfColumn c) = c :=
  BitVec.eq_of_toNat_eq (by rw [columnOf_toNat (by rw [xOfColumn_toNat]; exact c.isLt), xOfColumn_toNat])

theorem pageOf_yOfBit (p : Page) {b : Nat} (hb : b < 8) : pageOf (yOfBit p b) = p := by
  have hp := p.isLt
  have hy := yOfBit_toNat p hb
  apply BitVec.eq_of_toNat_eq
  rw [pageOf_toNat (by omega), hy]
  omega

theorem bitOf_yOfBit (p : Page) {b : Nat} (hb : b < 8) : bitOf (yOfBit p b) = b := by
  rw [bitOf_eq, yOfBit_toNat p hb]
  omega

/-- Every bit of FB is exactly one pixel: `xOfColumn` and `yOfBit` name it, and undo the operand forms. -/
theorem existsUnique_inRange_address (c : Column) (p : Page) {b : Nat} (hb : b < 8) :
    ∃! xy : Byte × Byte, inRange xy.1 xy.2 = true ∧ columnOf xy.1 = c ∧ pageOf xy.2 = p ∧ bitOf xy.2 = b := by
  refine ⟨(xOfColumn c, yOfBit p b), ⟨inRange_xOfColumn_yOfBit c p hb, columnOf_xOfColumn c, pageOf_yOfBit p hb,
    bitOf_yOfBit p hb⟩, ?_⟩
  rintro ⟨x, y⟩ ⟨hxy, rfl, rfl, rfl⟩
  obtain ⟨hx, hy⟩ := inRange_iff.mp hxy
  exact (Prod.ext (xOfColumn_columnOf hx) (yOfBit_pageOf_bitOf hy)).symm

/-- `Pixel(x, y)` (R21) is the bit that the operand forms name. -/
theorem Memory.pixel_eq_operand_forms (m : Memory) (x y : Byte) :
    m.pixel x.toNat y.toNat = (m.read (pageOf y) (columnOf x)).getLsbD (bitOf y) := rfl

/-- Settles O41: the operand forms of an in-range pixel, and their inverse. -/
theorem pixelsAndTriplesAreOneToOne : Obligations.PixelsAndTriplesAreOneToOne := by
  refine ⟨fun x y hxy => ?_, fun m x y _ => m.pixel_eq_operand_forms x y,
    fun c p _ hb => existsUnique_inRange_address c p hb⟩
  obtain ⟨hx, hy⟩ := inRange_iff.mp hxy
  exact ⟨columnOf_toNat hx, pageOf_toNat hy, bitOf_eq y⟩

end Sys2Proof.Machine
end

section
/-! PROOFS. R34, R32: the values after power-on, and the transport port. -/

namespace Sys2Proof.Machine

/-- Settles O11: FB by the law of `Memory.ofBytes`, the registers by the literal of `State.reset`. -/
theorem powerOnValues : Obligations.PowerOnValues :=
  ⟨rfl, rfl, rfl, rfl, rfl, rfl, rfl, by decide, rfl, rfl, Memory.read_ofBytes (Config.fbReset 0)⟩

/-- The three outputs while a byte is offered. -/
theorem State.txPort_of_offer {s : State} {byte : Byte} {kind : Kind} (h : s.offer = some ⟨byte, kind⟩) :
    s.txValid = true ∧ s.txByte = byte ∧ s.txDc = kind.dc := by
  simp [State.txValid, State.txByte, State.txDc, h]

/-- The page number goes into zero bits of 0xB0, so the sum has no carry (R32). -/
theorem pageSelect_eq_or : ∀ p : Page, pageSelect p = 0xB0#8 ||| p.setWidth 8 := by decide

/-- The offer is a function of PHASE, PAGE, COL, CMDBUF and FB. -/
theorem State.offer_congr {s t : State} (hph : s.phase = t.phase) (hp : s.page = t.page) (hc : s.col = t.col)
    (hb : s.cmdbuf = t.cmdbuf) (hf : s.fb = t.fb) : s.offer = t.offer := by
  simp only [State.offer, State.readByte, hph, hp, hc, hb, hf]

/-- Settles O25: row by row through the byte offered; in IDLE none is. -/
theorem transportPortFollowsTheTable : Obligations.TransportPortFollowsTheTable := by
  refine ⟨fun s h => ?_, fun s h => ?_, fun _ h => State.txPort_of_offer (State.offer_of_collo h),
    fun _ h => State.txPort_of_offer (State.offer_of_colhi h), fun _ h => State.txPort_of_offer (State.offer_of_data h),
    fun _ h => State.txPort_of_offer (State.offer_of_cmdout h), fun s t hph hp hc hb hf => ?_⟩
  · rw [State.txValid_eq_busy, State.busy_false_iff, h]
  · obtain ⟨hvalid, hbyte, hdc⟩ := State.txPort_of_offer (State.offer_of_pgsel h)
    exact ⟨hvalid, by rw [hbyte, pageSelect_toNat], by rw [hbyte, pageSelect_eq_or], hdc⟩
  · simp only [State.txValid, State.txByte, State.txDc, State.offer_congr hph hp hc hb hf, hp, hc, hf, and_self]

end Sys2Proof.Machine
end

section
/-! PROOFS. R133, R141: in a state of the page walk the block offers the entry of the frame at its walk position, and an
XFER moves the position on by one. -/

namespace Sys2Proof.Machine

theorem frame_length (F : Memory) : (frame F).length = 1048 := by simp [frame]

theorem frameEntry_pageSelect (F : Memory) (p : Page) :
    frameEntry F (131 * p.toNat) = ⟨pageSelect p, .command⟩ := by
  have hp := p.isLt
  have hbyte : BitVec.ofNat 8 (0xB0 + p.toNat) = pageSelect p := by
    apply BitVec.eq_of_toNat_eq
    rw [pageSelect_toNat, BitVec.toNat_ofNat]
    omega
  simp [frameEntry, hbyte]

theorem frameEntry_columnLow (F : Memory) (p : Page) : frameEntry F (131 * p.toNat + 1) = ⟨0x00, .command⟩ := by
  simp [frameEntry]

theorem frameEntry_columnHigh (F : Memory) (p : Page) : frameEntry F (131 * p.toNat + 2) = ⟨0x10, .command⟩ := by
  simp [frameEntry]

theorem frameEntry_data (F : Memory) (p : Page) (c : Column) :
    frameEntry F (131 * p.toNat + 3 + c.toNat) = ⟨F.read p c, .data⟩ := by
  have hc := c.isLt
  have hdiv : (131 * p.toNat + 3 + c.toNat) / 131 = p.toNat := by omega
  have hmod : (131 * p.toNat + 3 + c.toNat) % 131 = 3 + c.toNat := by omega
  simp [frameEntry, hdiv, hmod, show 3 + c.toNat ≠ 1 by omega, show 3 + c.toNat ≠ 2 by omega]

/-- In a state of the walk the block is busy. -/
theorem State.busy_of_walkPosition {s : State} {n : Nat} (hn : s.walkPosition = some n) : s.busy = true := by
  rw [State.busy_iff]
  intro hph
  simp [State.walkPosition, hph] at hn

theorem State.offer_of_walkPosition {s : State} {n : Nat} (hn : s.walkPosition = some n) :
    s.offer = some (frameEntry s.fb n) := by
  cases hph : s.phase with
  | idle | cmdout => simp [State.walkPosition, hph] at hn
  | pgsel =>
    obtain rfl : 131 * s.page.toNat = n := by simpa [State.walkPosition, hph] using hn
    rw [State.offer_of_pgsel hph, frameEntry_pageSelect]
  | collo =>
    obtain rfl : 131 * s.page.toNat + 1 = n := by simpa [State.walkPosition, hph] using hn
    rw [State.offer_of_collo hph, frameEntry_columnLow]
  | colhi =>
    obtain rfl : 131 * s.page.toNat + 2 = n := by simpa [State.walkPosition, hph] using hn
    rw [State.offer_of_colhi hph, frameEntry_columnHigh]
  | data =>
    obtain rfl : 131 * s.page.toNat + 3 + s.col.toNat = n := by simpa [State.walkPosition, hph] using hn
    rw [State.offer_of_data hph, frameEntry_data]

section nextPosition
variable {s : State}

theorem State.nextPosition_of_pgsel (hs : s.phase = .pgsel) :
    s.nextPosition = s.setPosition .collo s.page s.col := by simp [State.nextPosition, hs]

theorem State.nextPosition_of_collo (hs : s.phase = .collo) :
    s.nextPosition = s.setPosition .colhi s.page s.col := by simp [State.nextPosition, hs]

theorem State.nextPosition_of_colhi (hs : s.phase = .colhi) :
    s.nextPosition = s.setPosition .data s.page s.col := by simp [State.nextPosition, hs]

theorem State.nextPosition_of_data (hs : s.phase = .data) (hc : s.col ≠ lastColumn) :
    s.nextPosition = s.setPosition .data s.page (s.col + 1) := by simp [State.nextPosition, hs, hc]

theorem State.nextPosition_of_lastColumn (hs : s.phase = .data) (hc : s.col = lastColumn) (hp : s.page ≠ lastPage) :
    s.nextPosition = s.setPosition .pgsel (s.page + 1) 0 := by simp [State.nextPosition, hs, hc, hp]

theorem State.nextPosition_of_lastByte (hs : s.phase = .data) (hc : s.col = lastColumn) (hp : s.page = lastPage) :
    s.nextPosition = s.setPosition .idle 0 0 := by simp [State.nextPosition, hs, hc, hp]

theorem State.nextPosition_of_cmdout (hs : s.phase = .cmdout) :
    s.nextPosition = s.setPosition .idle 0 0 := by simp [State.nextPosition, hs]

end nextPosition

theorem State.xfer_walkPosition_eq (s : State) : s.xfer.walkPosition = s.nextPosition.walkPosition := by
  simp only [State.walkPosition, State.xfer_phase, State.xfer_page, State.xfer_col]

theorem toNat_add_one_of_ne_lastColumn {c : Column} (hc : c ≠ lastColumn) : (c + 1).toNat = c.toNat + 1 := by
  simp only [lastColumn] at hc
  bv_omega

theorem toNat_add_one_of_ne_lastPage {p : Page} (hp : p ≠ lastPage) : (p + 1).toNat = p.toNat + 1 := by
  simp only [lastPage] at hp
  bv_omega

/-- The XFER of a byte before the last one moves the walk on by one position. -/
theorem State.FsmInv.xfer_walkPosition {s : State} (hs : s.FsmInv) {n : Nat} (hn : s.walkPosition = some n)
    (hlast : n < 1047) : s.xfer.walkPosition = some (n + 1) := by
  rw [State.xfer_walkPosition_eq]
  cases hph : s.phase with
  | idle | cmdout => simp [State.walkPosition, hph] at hn
  | pgsel =>
    obtain rfl : 131 * s.page.toNat = n := by simpa [State.walkPosition, hph] using hn
    rw [State.nextPosition_of_pgsel hph]
    rfl
  | collo =>
    obtain rfl : 131 * s.page.toNat + 1 = n := by simpa [State.walkPosition, hph] using hn
    rw [State.nextPosition_of_collo hph]
    rfl
  | colhi =>
    obtain rfl : 131 * s.page.toNat + 2 = n := by simpa [State.walkPosition, hph] using hn
    rw [State.nextPosition_of_colhi hph, hs.framing_at_column_zero (.inr (.inr hph))]
    rfl
  | data =>
    obtain rfl : 131 * s.page.toNat + 3 + s.col.toNat = n := by simpa [State.walkPosition, hph] using hn
    by_cases hcol : s.col = lastColumn
    · have hpage : s.page ≠ lastPage := fun h => by simp [h, hcol, lastPage, lastColumn] at hlast
      rw [State.nextPosition_of_lastColumn hph hcol hpage, hcol]
      simp only [State.walkPosition, State.setPosition_phase, State.setPosition_page, toNat_add_one_of_ne_lastPage hpage]
      rfl
    · rw [State.nextPosition_of_data hph hcol]
      simp only [State.walkPosition, State.setPosition_phase, State.setPosition_page, State.setPosition_col,
        toNat_add_one_of_ne_lastColumn hcol]
      rfl

/-- The last byte of the frame is the last column of the last page. -/
theorem State.position_of_walkPosition_last {s : State} (hn : s.walkPosition = some 1047) :
    s.phase = .data ∧ s.page = lastPage ∧ s.col = lastColumn := by
  have hp := s.page.isLt
  have hc := s.col.isLt
  cases hph : s.phase with
  | idle | cmdout => simp [State.walkPosition, hph] at hn
  | pgsel | collo | colhi =>
    simp only [State.walkPosition, hph, Option.some.injEq] at hn
    omega
  | data =>
    simp only [State.walkPosition, hph, Option.some.injEq] at hn
    have hpage : s.page.toNat = 7 := by omega
    have hcol : s.col.toNat = 127 := by omega
    exact ⟨rfl, BitVec.eq_of_toNat_eq hpage, BitVec.eq_of_toNat_eq hcol⟩

end Sys2Proof.Machine
end

section
/-! PROOFS. R142: FLUSH and CMD run to completion on a transport that takes every byte. -/

namespace Sys2Proof.Machine

/-- The idle block that has sent these bytes, and is otherwise as it was. -/
def State.idleAfter (s : State) (sent : List TraceEntry) : State :=
  { s with phase := .idle, page := 0, col := 0, trace := s.trace ++ sent }

theorem State.finish_of_idle {s : State} (hs : s.phase = .idle) (k : Nat) : s.finish k = s := by
  cases k <;> simp [State.finish, State.busy, hs]

theorem State.finish_succ_of_busy {s : State} (hs : s.busy = true) (k : Nat) :
    s.finish (k + 1) = s.xfer.finish k := by
  simp [State.finish, hs]

theorem State.idleAfter_xfer {s : State} {e : TraceEntry} (he : s.offer = some e) (sent : List TraceEntry) :
    s.xfer.idleAfter sent = s.idleAfter (e :: sent) := by
  simp [State.xfer_eq, State.idleAfter, he]

/-- The XFER of the last byte of a FLUSH. -/
theorem State.xfer_of_walkPosition_last {s : State} (hn : s.walkPosition = some 1047) :
    s.xfer = s.idleAfter [frameEntry s.fb 1047] := by
  obtain ⟨hph, hp, hc⟩ := State.position_of_walkPosition_last hn
  simp [State.xfer_eq, State.offer_of_walkPosition hn, State.nextPosition_of_lastByte hph hc hp,
    State.idleAfter]

/-- The XFER of the byte of a CMD. -/
theorem State.xfer_of_cmdout {s : State} (hs : s.phase = .cmdout) : s.xfer = s.idleAfter [⟨s.cmdbuf, .command⟩] := by
  simp [State.xfer_eq, State.offer_of_cmdout hs, State.nextPosition_of_cmdout hs, State.idleAfter]

/-- From position n on, the bytes still to come are the entries n to 1047 of the frame. -/
theorem State.FsmInv.finish_of_walkPosition {s : State} (hs : s.FsmInv) {n k : Nat} (hn : s.walkPosition = some n)
    (hk : n + k = 1047) : s.finish (k + 1) = s.idleAfter ((List.range' n (k + 1)).map (frameEntry s.fb)) := by
  induction k generalizing s n with
  | zero =>
    obtain rfl : n = 1047 := hk
    rw [State.finish_succ_of_busy (State.busy_of_walkPosition hn), State.xfer_of_walkPosition_last hn]
    rfl
  | succ k ih =>
    have hrest := ih hs.xfer (hs.xfer_walkPosition hn (by omega)) (by omega)
    rw [State.finish_succ_of_busy (State.busy_of_walkPosition hn), hrest, State.xfer_fb,
      State.idleAfter_xfer (State.offer_of_walkPosition hn), List.range'_succ (s := n) (n := k + 1), List.map_cons]

theorem frameBytes_eq : Config.frameBytes = 1047 + 1 := rfl

/-- FLUSH sends the frame and leaves all but the FSM's position and the trace as it was (R132). -/
theorem issueAndWait_flush (s : State) : issueAndWait .flush s = .next (s.idleAfter (frame s.fb)) := by
  have hinv : (s.setPosition .pgsel 0 0).FsmInv := .of_origin rfl rfl
  have hwalk := hinv.finish_of_walkPosition (n := 0) rfl (Nat.zero_add 1047)
  simp only [issueAndWait, exec_eq, execState, frameBytes_eq, hwalk]
  rw [frame, List.range_eq_range']
  rfl

/-- CMD sends its byte and leaves it in CMDBUF (R136). -/
theorem issueAndWait_cmd (b : Byte) (s : State) :
    issueAndWait (.cmd b) s = .next ((s.setCmdbuf b).idleAfter [⟨b, .command⟩]) := by
  have hbusy : ((s.setCmdbuf b).setPosition .cmdout 0 0).busy = true := rfl
  simp only [issueAndWait, exec_eq, execState, frameBytes_eq]
  rw [State.finish_succ_of_busy hbusy, State.xfer_of_cmdout rfl, State.finish_of_idle rfl]
  rfl

end Sys2Proof.Machine
end

section
/-! PROOFS. R56: operands out of range. -/

namespace Sys2Proof.Machine

/-- Settles O40: out of range, the records of SETPX, GETPX and RDBYTE keep FB and set OOB. -/
theorem outOfRangeIsSilent : Obligations.OutOfRangeIsSilent := by
  refine fun x y on s => ⟨fun hxy => ?_, fun hcp => ?_⟩
  · have hout : inRange x y = false := by rwa [← Bool.not_eq_true, inRange_iff]
    simp [exec_eq, execState_setpx, execState_getpx, hout]
  · have hout : byteInRange x y = false := by rwa [← Bool.not_eq_true, byteInRange_iff]
    simp [exec_eq, execState_rdbyte, hout]

end Sys2Proof.Machine
end

section
/-! PROOFS. R59: which commands are idempotent. -/

namespace Sys2Proof.Machine

theorem setBits_setBits (b m : Byte) (on : Bool) : setBits (setBits b m on) m on = setBits b m on := by
  cases on <;> simp [setBits, BitVec.or_assoc, BitVec.and_assoc]

/-- A SETPX done twice writes the same page byte twice, the second time with the byte it already holds. -/
theorem execState_setpx_twice_read (x y : Byte) (on : Bool) (s : State) (p : Page) (c : Column) :
    (execState (.setpx x y on) (execState (.setpx x y on) s)).fb.read p c =
      (execState (.setpx x y on) s).fb.read p c := by
  cases h : inRange x y with
  | false => simp [execState_setpx, h]
  | true =>
    simp only [execState_setpx, h, if_true, Memory.read_write_same, setBits_setBits]
    simp only [Memory.read_write]
    split <;> rfl

/-- The two commands that only read FB change RDATA and OOB alone, and a second time nothing. -/
theorem execState_of_read {i : Instr} (hi : (∃ x y, i = .getpx x y) ∨ ∃ c p, i = .rdbyte c p) (s : State) :
    execState i s = { s with rdata := (execState i s).rdata, oob := (execState i s).oob } ∧
      execState i (execState i s) = execState i s := by
  obtain ⟨x, y, rfl⟩ | ⟨c, p, rfl⟩ := hi
  · simp [execState_getpx]
  · simp [execState_rdbyte]

/-- Settles O46: the readers and SETPX by their records, FLUSH and CMD by their runs to completion. -/
theorem idempotentCommands : Obligations.IdempotentCommands := by
  refine ⟨fun i s t hi ht => ?_, fun x y on s => ?_, fun s => ⟨s.zeroFb, exec_eq .clear s, exec_eq .clear s.zeroFb⟩,
    fun s => ⟨_, issueAndWait_flush s, rfl, rfl, frame_length s.fb⟩, fun b s => ⟨_, issueAndWait_cmd b s, rfl⟩⟩
  · obtain rfl : execState i s = t := by simpa [exec_eq] using ht
    obtain ⟨hframe, htwice⟩ := execState_of_read hi s
    exact ⟨hframe, by rw [exec_eq, htwice]⟩
  · exact ⟨_, _, exec_eq _ _, exec_eq _ _, execState_setpx_twice_read x y on s⟩

end Sys2Proof.Machine
end

section
/-! PROOFS. R71, R72: a command word is its fields. Read as numbers, they are the digits of the word; with bits 27:17 at
0 they give the word back (`eq_formatF`). -/

namespace Sys2Proof

theorem opField_toNat (w : Word) : (opField w).toNat = w.toNat / 2 ^ 28 := by
  simp only [opField, BitVec.extractLsb'_toNat, Nat.shiftRight_eq_div_pow]
  omega

theorem onField_eq (w : Word) : onField w = decide (w.toNat / 65536 % 2 = 1) :=
  Nat.testBit_eq_decide_div_mod_eq

theorem yField_toNat (w : Word) : (yField w).toNat = w.toNat / 256 % 256 := by
  simp [yField, BitVec.extractLsb'_toNat, Nat.shiftRight_eq_div_pow]

theorem xField_toNat (w : Word) : (xField w).toNat = w.toNat % 256 := by
  simp [xField, BitVec.extractLsb'_toNat]

theorem yField_eq (w : Word) : yField w = BitVec.ofNat 8 (w.toNat / 256 % 256) := by
  rw [← yField_toNat, BitVec.ofNat_toNat, BitVec.setWidth_eq]

theorem xField_eq (w : Word) : xField w = BitVec.ofNat 8 (w.toNat % 256) := by
  rw [← xField_toNat, BitVec.ofNat_toNat, BitVec.setWidth_eq]

section and
variable (v w : Word)

@[simp] theorem opField_and : opField (v &&& w) = opField v &&& opField w := BitVec.extractLsb'_and ..
@[simp] theorem onField_and : onField (v &&& w) = (onField v && onField w) := BitVec.getLsbD_and
@[simp] theorem yField_and : yField (v &&& w) = yField v &&& yField w := BitVec.extractLsb'_and ..
@[simp] theorem xField_and : xField (v &&& w) = xField v &&& xField w := BitVec.extractLsb'_and ..

end and

section formatF
variable (op : BitVec 4) (on : Bool) (y x : Byte)

@[simp] theorem opField_formatF : opField (formatF op on y x) = op := Laws.EncodedFields.formatF_op op on y x

@[simp] theorem onField_formatF : onField (formatF op on y x) = on := by
  simp [onField, formatF]

@[simp] theorem yField_formatF : yField (formatF op on y x) = y := by
  apply BitVec.eq_of_getLsbD_eq
  intro i hi
  simp [yField, formatF, hi, show 8 + i < 32 by omega, show 8 + i < 28 by omega, show 8 + i < 16 by omega]

@[simp] theorem xField_formatF : xField (formatF op on y x) = x := by
  apply BitVec.eq_of_getLsbD_eq
  intro i hi
  simp [xField, formatF, hi, show i < 32 by omega, show i < 28 by omega, show i < 16 by omega]

end formatF

/-- The fields and the reserved bits 27:17 make up the word. -/
theorem word_ext {v w : Word} (hop : opField v = opField w) (hr : v.extractLsb' 17 11 = w.extractLsb' 17 11)
    (hon : onField v = onField w) (hy : yField v = yField w) (hx : xField v = xField w) : v = w := by
  replace hop := congrArg BitVec.toNat hop
  replace hr := congrArg BitVec.toNat hr
  replace hy := congrArg BitVec.toNat hy
  replace hx := congrArg BitVec.toNat hx
  simp only [opField_toNat, yField_toNat, xField_toNat, onField_eq, BitVec.extractLsb'_toNat,
    Nat.shiftRight_eq_div_pow, decide_eq_decide] at hop hr hon hy hx
  exact BitVec.eq_of_toNat_eq (by omega)

/-- R71: a word whose reserved bits are 0 is the word of its fields. -/
theorem eq_formatF {w : Word} (hr : w.extractLsb' 17 11 = 0) :
    w = formatF (opField w) (onField w) (yField w) (xField w) :=
  word_ext (opField_formatF ..).symm (hr.trans (Laws.EncodedFields.formatF_reserved ..).symm)
    (onField_formatF ..).symm (yField_formatF ..).symm (xField_formatF ..).symm

/-- R77's sum `op<<28 | on<<16 | y<<8 | x` as a number. -/
theorem formatF_toNat (op : BitVec 4) (on : Bool) (y x : Byte) :
    (formatF op on y x).toNat = op.toNat * 2 ^ 28 + on.toNat * 65536 + y.toNat * 256 + x.toNat := by
  have hop := opField_toNat (formatF op on y x)
  have hr := congrArg BitVec.toNat (Laws.EncodedFields.formatF_reserved op on y x)
  have hon := onField_eq (formatF op on y x)
  have hy := yField_toNat (formatF op on y x)
  have hx := xField_toNat (formatF op on y x)
  simp only [opField_formatF, onField_formatF, yField_formatF, xField_formatF, BitVec.extractLsb'_toNat,
    Nat.shiftRight_eq_div_pow] at hop hr hon hy hx
  cases on <;> simp at hon hr ⊢ <;> omega

/-- A mask that is itself a word of format F selects field by field. -/
theorem and_formatF (w : Word) (op : BitVec 4) (on : Bool) (y x : Byte) :
    w &&& formatF op on y x = formatF (opField w &&& op) (onField w && on) (yField w &&& y) (xField w &&& x) := by
  have hr : (w &&& formatF op on y x).extractLsb' 17 11 = 0 := by
    rw [BitVec.extractLsb'_and, Laws.EncodedFields.formatF_reserved]
    exact BitVec.and_zero
  simpa using eq_formatF hr

end Sys2Proof
end

section
/-! PROOFS. R77: the decoder, one equation per row of the opcode table, and the bits each row reads; decode and encode
undo each other. -/

namespace Sys2Proof

/-- The rows of the opcode table (R73): 0x0 to 0x7, and the reserved opcodes. -/
theorem opcode_cases : ∀ op : BitVec 4, op = 0x0#4 ∨ op = 0x1#4 ∨ op = 0x2#4 ∨ op = 0x3#4 ∨ op = 0x4#4 ∨
    op = 0x5#4 ∨ op = 0x6#4 ∨ op = 0x7#4 ∨ 8 ≤ op.toNat := by
  decide

section decode
variable {w : Word}

theorem decode_of_nop (h : opField w = 0x0#4) : decode w = .nop := by simp [decode, h]
theorem decode_of_setpx (h : opField w = 0x1#4) : decode w = .setpx (xField w) (yField w) (onField w) := by
  simp [decode, h]
theorem decode_of_getpx (h : opField w = 0x2#4) : decode w = .getpx (xField w) (yField w) := by simp [decode, h]
theorem decode_of_clear (h : opField w = 0x3#4) : decode w = .clear := by simp [decode, h]
theorem decode_of_flush (h : opField w = 0x4#4) : decode w = .flush := by simp [decode, h]
theorem decode_of_cmd (h : opField w = 0x5#4) : decode w = .cmd (xField w) := by simp [decode, h]
theorem decode_of_rdbyte (h : opField w = 0x6#4) : decode w = .rdbyte (xField w) (yField w) := by simp [decode, h]
theorem decode_of_clrstat (h : opField w = 0x7#4) : decode w = .clrstat := by simp [decode, h]
theorem decode_of_reserved (h : 8 ≤ (opField w).toNat) : decode w = .reserved (opField w) := by
  unfold decode
  split <;> simp_all

end decode

theorem decode_opcode (w : Word) : (decode w).opcode = opField w := by
  unfold decode
  split <;> simp_all [Instr.opcode]

theorem decode_wellFormed (w : Word) : (decode w).wellFormed = true := by
  obtain h | h | h | h | h | h | h | h | h := opcode_cases (opField w)
  · rw [decode_of_nop h]; rfl
  · rw [decode_of_setpx h]; rfl
  · rw [decode_of_getpx h]; rfl
  · rw [decode_of_clear h]; rfl
  · rw [decode_of_flush h]; rfl
  · rw [decode_of_cmd h]; rfl
  · rw [decode_of_rdbyte h]; rfl
  · rw [decode_of_clrstat h]; rfl
  · rw [decode_of_reserved h]; exact decide_eq_true h

/-- R77's `decode`, its fields read as numbers (R72). -/
theorem decode_eq_numeric (w : Word) : decode w =
    match w.toNat / 2 ^ 28 with
    | 0 => .nop
    | 1 => .setpx (BitVec.ofNat 8 (w.toNat % 256)) (BitVec.ofNat 8 (w.toNat / 256 % 256))
        (decide (w.toNat / 65536 % 2 = 1))
    | 2 => .getpx (BitVec.ofNat 8 (w.toNat % 256)) (BitVec.ofNat 8 (w.toNat / 256 % 256))
    | 3 => .clear
    | 4 => .flush
    | 5 => .cmd (BitVec.ofNat 8 (w.toNat % 256))
    | 6 => .rdbyte (BitVec.ofNat 8 (w.toNat % 256)) (BitVec.ofNat 8 (w.toNat / 256 % 256))
    | 7 => .clrstat
    | op => .reserved (BitVec.ofNat 4 op) := by
  rw [← opField_toNat, ← xField_eq, ← yField_eq, ← onField_eq]
  obtain h | h | h | h | h | h | h | h | h := opcode_cases (opField w)
  · rw [decode_of_nop h, h]; rfl
  · rw [decode_of_setpx h, h]; rfl
  · rw [decode_of_getpx h, h]; rfl
  · rw [decode_of_clear h, h]; rfl
  · rw [decode_of_flush h, h]; rfl
  · rw [decode_of_cmd h, h]; rfl
  · rw [decode_of_rdbyte h, h]; rfl
  · rw [decode_of_clrstat h, h]; rfl
  · rw [decode_of_reserved h]
    split
    case h_9 => rw [BitVec.ofNat_toNat, BitVec.setWidth_eq]
    all_goals omega

/-- R77: a command is read back from its word. -/
theorem decode_encode {i : Instr} (hi : i.wellFormed = true) : decode (encode i) = i := by
  cases i with
  | nop => exact decode_of_nop (opField_formatF ..)
  | setpx x y on => simpa [encode] using decode_of_setpx (opField_formatF 0x1 on y x)
  | getpx x y => simpa [encode] using decode_of_getpx (opField_formatF 0x2 false y x)
  | clear => exact decode_of_clear (opField_formatF ..)
  | flush => exact decode_of_flush (opField_formatF ..)
  | cmd byte => simpa [encode] using decode_of_cmd (opField_formatF 0x5 false 0 byte)
  | rdbyte col page => simpa [encode] using decode_of_rdbyte (opField_formatF 0x6 false page col)
  | clrstat => exact decode_of_clrstat (opField_formatF ..)
  | reserved op =>
    have hop : 8 ≤ (opField (encode (.reserved op))).toNat := by simpa [encode, Instr.wellFormed] using hi
    simpa [encode] using decode_of_reserved hop

section mask
variable {w : Word} {op : BitVec 4}

/-! The masks of R73 and R74: the fields each keeps of a word. -/

theorem and_mask_op_on_y_x (h : opField w = op) :
    w &&& 0xF001FFFF = formatF op (onField w) (yField w) (xField w) := by
  have hm : (0xF001FFFF : Word) = formatF (.allOnes 4) true (.allOnes 8) (.allOnes 8) := by decide
  rw [hm, and_formatF, h, BitVec.and_allOnes, BitVec.and_allOnes, BitVec.and_allOnes, Bool.and_true]

theorem and_mask_op_y_x (h : opField w = op) : w &&& 0xF000FFFF = formatF op false (yField w) (xField w) := by
  have hm : (0xF000FFFF : Word) = formatF (.allOnes 4) false (.allOnes 8) (.allOnes 8) := by decide
  rw [hm, and_formatF, h, BitVec.and_allOnes, BitVec.and_allOnes, BitVec.and_allOnes, Bool.and_false]

theorem and_mask_op_x (h : opField w = op) : w &&& 0xF00000FF = formatF op false 0 (xField w) := by
  have hm : (0xF00000FF : Word) = formatF (.allOnes 4) false 0#8 (.allOnes 8) := by decide
  rw [hm, and_formatF, h, BitVec.and_allOnes, BitVec.and_allOnes, BitVec.and_zero, Bool.and_false]; rfl

theorem and_mask_op (h : opField w = op) : w &&& 0xF0000000 = formatF op false 0 0 := by
  have hm : (0xF0000000 : Word) = formatF (.allOnes 4) false 0#8 0#8 := by decide
  rw [hm, and_formatF, h, BitVec.and_allOnes, BitVec.and_zero, BitVec.and_zero, Bool.and_false]; rfl

theorem and_mask_top (h : opField w = op) : w &&& 0x80000000 = formatF (op &&& 0x8) false 0 0 := by
  have hm : (0x80000000 : Word) = formatF 0x8 false 0#8 0#8 := by decide
  rw [hm, and_formatF, h, BitVec.and_zero, BitVec.and_zero, Bool.and_false]; rfl

end mask

theorem usedBits_of_reserved : ∀ {op : BitVec 4}, 8 ≤ op.toNat → usedBits op = 0xF0000000 := by decide

/-- Encoding what a word decodes to keeps the bits its opcode reads and zeroes the ignored ones (R75). -/
theorem encode_decode (w : Word) : encode (decode w) = w &&& usedBits (opField w) := by
  obtain h | h | h | h | h | h | h | h | h := opcode_cases (opField w)
  · rw [decode_of_nop h, h]; exact (and_mask_op h).symm
  · rw [decode_of_setpx h, h]; exact (and_mask_op_on_y_x h).symm
  · rw [decode_of_getpx h, h]; exact (and_mask_op_y_x h).symm
  · rw [decode_of_clear h, h]; exact (and_mask_op h).symm
  · rw [decode_of_flush h, h]; exact (and_mask_op h).symm
  · rw [decode_of_cmd h, h]; exact (and_mask_op_x h).symm
  · rw [decode_of_rdbyte h, h]; exact (and_mask_op_y_x h).symm
  · rw [decode_of_clrstat h, h]; exact (and_mask_op h).symm
  · rw [decode_of_reserved h, usedBits_of_reserved h]; exact (and_mask_op rfl).symm

theorem and_eq_self_of_and_not_eq_zero {w m : Word} (h : w &&& ~~~m = 0) : w &&& m = w :=
  calc w &&& m = w &&& m ||| w &&& ~~~m := by rw [h]; exact BitVec.or_zero.symm
    _ = w := by rw [← BitVec.and_or_distrib_left, BitVec.or_not_self, BitVec.and_allOnes]

/-- Settles O2: both round trips from what each direction keeps, `decode_encode` and `encode_decode`. -/
theorem decodeAndEncodeAreInverse : Obligations.DecodeAndEncodeAreInverse :=
  ⟨decode_eq_numeric,
    ⟨rfl, fun x y on => formatF_toNat 0x1 on y x, fun x y => formatF_toNat 0x2 false y x, rfl, rfl,
      fun b => formatF_toNat 0x5 false 0 b, fun c p => formatF_toNat 0x6 false p c, rfl⟩,
    fun _ hi => decode_encode hi,
    fun w _ hw => (encode_decode w).trans (and_eq_self_of_and_not_eq_zero hw)⟩

end Sys2Proof
end

section
/-! PROOFS. R74, R75: the opcode map, and the ignored bits. -/

namespace Sys2Proof

theorem opField_encode (i : Instr) : opField (encode i) = i.opcode := by cases i <;> exact opField_formatF ..

/-- The word of a command has no bit that its opcode does not read, that of RESERVED with an opcode below 8 too (log 8). -/
theorem encode_and_usedBits (i : Instr) : encode i &&& usedBits i.opcode = encode i := by
  cases hi : i.wellFormed with
  | true => simpa only [decode_encode hi, opField_encode] using (encode_decode (encode i)).symm
  | false =>
    cases i with
    | reserved op => clear hi; revert op; decide
    | _ => cases hi

/-- What a word decodes to is read from its opcode and used bits alone. -/
theorem decode_congr_usedBits {v w : Word} (hop : opField v = opField w)
    (hu : v &&& usedBits (opField v) = w &&& usedBits (opField v)) : decode v = decode w := by
  have he : encode (decode v) = encode (decode w) := by rw [encode_decode, encode_decode, ← hop, hu]
  rw [← decode_encode (decode_wellFormed v), he, decode_encode (decode_wellFormed w)]

/-- Settles O3: equal used bits, equal commands; and an encoded command has used bits only. -/
theorem ignoredBitsHaveNoEffect : Obligations.IgnoredBitsHaveNoEffect := by
  refine ⟨by decide, fun v w hop hu => ?_, fun i => ?_⟩
  · have hd := decode_congr_usedBits hop hu
    exact ⟨hd, fun s => by rw [hd]⟩
  · rw [← encode_and_usedBits i, BitVec.and_assoc, BitVec.and_not_self]
    exact BitVec.and_zero

theorem opField_of_decode {w : Word} {i : Instr} (h : decode w = i) : opField w = i.opcode := by
  rw [← h, decode_opcode]

/-- R74: `(w & 0xF0000000) = match` for the match of an opcode says that it is the word's. -/
theorem and_mask_op_eq_iff (w : Word) (op : BitVec 4) : w &&& 0xF0000000 = formatF op false 0 0 ↔ opField w = op := by
  rw [and_mask_op rfl]
  exact ⟨fun h => by simpa using congrArg opField h, fun h => by rw [h]⟩

theorem and_mask_top_eq_iff (w : Word) : w &&& 0x80000000 = 0x80000000 ↔ 8 ≤ (opField w).toNat := by
  rw [and_mask_top rfl]
  generalize opField w = op
  revert op
  decide

/-- One row of R74 fits a word: which rows fit, and which row its command has, depends on the opcode alone. -/
theorem opcodeTable_fits (w : Word) :
    (opcodeTable.filter fun r => r.fits w).map OpcodeRow.mnemonic = [(decode w).mnemonic] := by
  have hfits : ∀ r ∈ opcodeTable, r.fits w = r.fits (formatF (opField w) false 0 0) := by
    have hm : ∀ r ∈ opcodeTable, 0xF0000000 &&& r.mask = r.mask := by decide
    intro r hr
    rw [OpcodeRow.fits, OpcodeRow.fits, ← and_mask_op rfl, BitVec.and_assoc, hm r hr]
  have hmn : (decode w).mnemonic = (decode (formatF (opField w) false 0 0)).mnemonic := by
    unfold decode
    rw [opField_formatF]
    split <;> rfl
  rw [List.filter_congr hfits, hmn]
  generalize opField w = op
  revert op
  decide

/-- Settles O4: a row's mask keeps the opcode alone, and the opcode tells which command a word decodes to. -/
theorem everyWordHasOneOpcodeRow : Obligations.EveryWordHasOneOpcodeRow := by
  intro w
  refine ⟨(and_mask_op_eq_iff w 0x0).trans ⟨decode_of_nop, opField_of_decode⟩,
    (and_mask_op_eq_iff w 0x1).trans ⟨fun h => ⟨_, _, _, decode_of_setpx h⟩, fun ⟨_, _, _, h⟩ => opField_of_decode h⟩,
    (and_mask_op_eq_iff w 0x2).trans ⟨fun h => ⟨_, _, decode_of_getpx h⟩, fun ⟨_, _, h⟩ => opField_of_decode h⟩,
    (and_mask_op_eq_iff w 0x3).trans ⟨decode_of_clear, opField_of_decode⟩,
    (and_mask_op_eq_iff w 0x4).trans ⟨decode_of_flush, opField_of_decode⟩,
    (and_mask_op_eq_iff w 0x5).trans ⟨fun h => ⟨_, decode_of_cmd h⟩, fun ⟨_, h⟩ => opField_of_decode h⟩,
    (and_mask_op_eq_iff w 0x6).trans ⟨fun h => ⟨_, _, decode_of_rdbyte h⟩, fun ⟨_, _, h⟩ => opField_of_decode h⟩,
    (and_mask_op_eq_iff w 0x7).trans ⟨decode_of_clrstat, opField_of_decode⟩,
    (and_mask_top_eq_iff w).trans ⟨fun h => ⟨_, decode_of_reserved h⟩, fun ⟨op, h⟩ => ?_⟩, opcodeTable_fits w⟩
  have hwf := decode_wellFormed w
  rw [h] at hwf
  exact opField_of_decode h ▸ of_decide_eq_true hwf

end Sys2Proof
end

section
/-! PROOFS. R79, R80: the pseudo-instructions, and the spec's encoding examples. -/

namespace Sys2Proof

theorem Assembler.byteOperand_of_le {n : Nat} (h : n ≤ 255) : byteOperand n = some (BitVec.ofNat 8 n) := if_pos h

theorem Assembler.bitOperand_of_le {n : Nat} (h : n ≤ 1) : bitOperand n = some (decide (n = 1)) := if_pos h

/-- Settles O1, by running the assembler, the encoder and the decoder on R80's eleven rows. -/
theorem exampleWordsAreTheirCommands : Obligations.ExampleWordsAreTheirCommands := by
  unfold Obligations.ExampleWordsAreTheirCommands
  decide

/-- Settles O55: the bit operand of PSET and PCLR is a constant in range. -/
theorem pseudoInstructionsExpandToSetpx : Obligations.PseudoInstructionsExpandToSetpx := by
  refine fun x y on => ⟨?_, ?_, rfl, fun hx hy hon => ?_⟩
  · simp [Assembler.build, Assembler.bitOperand, Option.map_eq_bind]
  · simp [Assembler.build, Assembler.bitOperand, Option.map_eq_bind]
  · simp [Assembler.build, Assembler.byteOperand_of_le hx, Assembler.byteOperand_of_le hy,
      Assembler.bitOperand_of_le hon]

end Sys2Proof
end

section
/-! PROOFS. R20, R21: FB is its pixels. -/

namespace Sys2Proof.Machine

/-- Each bit of a page byte is a pixel. -/
theorem Memory.getLsbD_read_eq_pixel (m : Memory) (p : Page) (c : Column) {b : Nat} (hb : b < 8) :
    (m.read p c).getLsbD b = m.pixel c.toNat (8 * p.toNat + b) := by
  have hpage : (8 * p.toNat + b) / 8 = p.toNat := by omega
  have hbit : (8 * p.toNat + b) % 8 = b := by omega
  simp [Memory.pixel, hpage, hbit]

theorem Memory.read_eq_of_pixel {m m' : Memory} (h : ∀ x y, x < 128 → y < 64 → m.pixel x y = m'.pixel x y)
    (p : Page) (c : Column) : m.read p c = m'.read p c := by
  have hp := p.isLt
  refine BitVec.eq_of_getLsbD_eq fun b hb => ?_
  rw [Memory.getLsbD_read_eq_pixel m p c hb, Memory.getLsbD_read_eq_pixel m' p c hb]
  exact h _ _ c.isLt (by omega)

@[simp] theorem Memory.pixel_zero (x y : Nat) : Memory.zero.pixel x y = false := by simp [Memory.pixel]

/-- The page, column and bit of a pixel are those of an in-range (x, y) exactly if it is that pixel. -/
theorem address_eq_iff {x' y' : Nat} (hx' : x' < 128) (hy' : y' < 64) (x y : Byte) :
    (inRange x y = true ∧ BitVec.ofNat 3 (y' / 8) = pageOf y ∧ BitVec.ofNat 7 x' = columnOf x ∧ y' % 8 = bitOf y) ↔
      x' = x.toNat ∧ y' = y.toNat := by
  simp only [inRange_iff, pageOf_eq, columnOf_eq, bitOf_eq, ← BitVec.toNat_inj, BitVec.toNat_ofNat]
  omega

end Sys2Proof.Machine
end

section
/-! PROOFS. R101, R103, R105, R107: what SETPX, GETPX, RDBYTE and CLEAR do, each with its word. -/

namespace Sys2Proof.Machine

theorem inRange_eq_false_iff {x y : Byte} : inRange x y = false ↔ ¬(x.toNat < 128 ∧ y.toNat < 64) := by
  rw [← Bool.not_eq_true, inRange_iff]

theorem byteInRange_eq_false_iff {c p : Byte} : byteInRange c p = false ↔ ¬(c.toNat < 128 ∧ p.toNat < 8) := by
  rw [← Bool.not_eq_true, byteInRange_iff]

theorem execState_of_exec {i : Instr} {s t : State} (h : exec i s = .next t) : execState i s = t := by
  simpa [exec_eq] using h

/-- SETPX on FB byte by byte. -/
theorem execState_setpx_read (x y : Byte) (on : Bool) (s : State) (p : Page) (c : Column) :
    (execState (.setpx x y on) s).fb.read p c =
      if inRange x y = true ∧ p = pageOf y ∧ c = columnOf x then setBits (s.fb.read p c) (maskOf y) on
      else s.fb.read p c := by
  cases h : inRange x y with
  | false => simp [execState_setpx, h]
  | true =>
    simp only [execState_setpx, h, if_true, Memory.read_write, true_and]
    split
    next haddr => obtain ⟨rfl, rfl⟩ := haddr; rfl
    next => rfl

/-- SETPX on FB bit by bit: at most the one bit that its in-range operands address (R101, R107). -/
theorem execState_setpx_getLsbD (x y : Byte) (on : Bool) (s : State) (p : Page) (c : Column) (b : Nat) :
    ((execState (.setpx x y on) s).fb.read p c).getLsbD b =
      if inRange x y = true ∧ p = pageOf y ∧ c = columnOf x ∧ b = bitOf y then on
      else (s.fb.read p c).getLsbD b := by
  by_cases hb : b < 8
  · rw [execState_setpx_read]
    by_cases haddr : inRange x y = true ∧ p = pageOf y ∧ c = columnOf x
    · simp [haddr, setBits_getLsbD _ _ _ _ hb, maskOf_getLsbD]
    · rw [if_neg haddr, if_neg fun h => haddr ⟨h.1, h.2.1, h.2.2.1⟩]
  · have hbit := bitOf_lt y
    rw [if_neg fun h => by omega, BitVec.getLsbD_of_ge _ _ (by omega), BitVec.getLsbD_of_ge _ _ (by omega)]

/-- SETPX on FB pixel by pixel (R102). -/
theorem execState_setpx_pixel (x y : Byte) (on : Bool) (s : State) {x' y' : Nat} (hx' : x' < 128) (hy' : y' < 64) :
    (execState (.setpx x y on) s).fb.pixel x' y' =
      if x' = x.toNat ∧ y' = y.toNat then on else s.fb.pixel x' y' := by
  simp only [Memory.pixel, execState_setpx_getLsbD, address_eq_iff hx' hy']

/-- CLEAR and SETPX are the only commands that write FB (R57, R107). -/
theorem execState_fb {i : Instr} (hclear : i ≠ .clear) (hsetpx : ∀ x y on, i ≠ .setpx x y on) (s : State) :
    (execState i s).fb = s.fb := by
  cases i with
  | clear => exact absurd rfl hclear
  | setpx x y on => exact absurd rfl (hsetpx x y on)
  | getpx x y => rw [execState_getpx]
  | rdbyte c p => rw [execState_rdbyte]
  | nop | flush | cmd byte | clrstat | reserved op => rfl

/-- Settles O32: in range by the byte that SETPX writes, out of range by its record. -/
theorem setpxWritesItsPixel : Obligations.SetpxWritesItsPixel := by
  refine fun x y on s => ⟨by cases on <;> rfl, _, exec_eq _ _, ?_⟩
  by_cases hxy : x.toNat < 128 ∧ y.toNat < 64
  · have hin := inRange_iff.mpr hxy
    have haddr : ∀ (p : Page) (c : Column),
        (p = pageOf y ∧ c = columnOf x) ↔ (p.toNat = y.toNat / 8 ∧ c.toNat = x.toNat) := fun p c => by
      rw [← BitVec.toNat_inj, ← BitVec.toNat_inj, pageOf_toNat hxy.2, columnOf_toNat hxy.1]
    rw [if_pos hxy]
    refine ⟨by simp [execState_setpx, hin], fun p c => ?_⟩
    simp only [execState_setpx_read, hin, true_and, haddr]
    rfl
  · have hout := inRange_eq_false_iff.mpr hxy
    rw [if_neg hxy]
    simp [execState_setpx, hout]

/-- Settles O33: the record of GETPX, in range and out of range. -/
theorem getpxReadsItsPixel : Obligations.GetpxReadsItsPixel := by
  refine fun x y s => ⟨rfl, ?_⟩
  rw [exec_eq, execState_getpx]
  by_cases hxy : x.toNat < 128 ∧ y.toNat < 64
  · simp [inRange_iff.mpr hxy, hxy, Memory.pixel]
  · have hout := inRange_eq_false_iff.mpr hxy
    simp [hout, hxy]

/-- Settles O34: the record of RDBYTE, in range and out of range. -/
theorem rdbyteReadsItsByte : Obligations.RdbyteReadsItsByte := by
  refine fun c p s => ⟨rfl, ?_⟩
  rw [exec_eq, execState_rdbyte]
  by_cases hcp : c.toNat < 128 ∧ p.toNat < 8
  · simp [byteInRange_iff.mpr hcp, hcp, pageIndex_eq, columnOf_eq]
  · have hout := byteInRange_eq_false_iff.mpr hcp
    simp [hout, hcp]

/-- Settles O35: CLEAR writes the all-zero framebuffer, SETPX one bit, every other command nothing. -/
theorem clearZeroesEveryByte : Obligations.ClearZeroesEveryByte := by
  refine ⟨rfl, fun s => ⟨s.zeroFb, exec_eq .clear s, rfl, Memory.read_zero, exec_eq .clear s.zeroFb⟩,
    fun i s t hclear hsetpx ht => ?_, fun x y on s t ht p c b hb => ?_⟩
  · obtain rfl := execState_of_exec ht
    exact execState_fb hclear hsetpx s
  · obtain rfl := execState_of_exec ht
    rw [execState_setpx_getLsbD, if_neg hb]

end Sys2Proof.Machine
end

section
/-! PROOFS. R102, R104, R106, R108: the laws of the framebuffer commands. -/

namespace Sys2Proof.Machine

theorem execState_getpx_rdata {x y : Byte} (hx : x.toNat < 128) (hy : y.toNat < 64) (s : State) :
    (execState (.getpx x y) s).rdata = if s.fb.pixel x.toNat y.toNat then 0x01 else 0x00 := by
  simp [execState_getpx, inRange_iff.mpr ⟨hx, hy⟩]

/-- GETPX of an all-zero framebuffer, in range or not. -/
theorem execState_getpx_rdata_zeroFb (x y : Byte) (s : State) : (execState (.getpx x y) s.zeroFb).rdata = 0x00 := by
  simp [execState_getpx]

theorem execState_rdbyte_rdata {c p : Byte} (hc : c.toNat < 128) (hp : p.toNat < 8) (s : State) :
    (execState (.rdbyte c p) s).rdata = s.fb.read (pageIndex p) (columnOf c) := by
  simp [execState_rdbyte, byteInRange_iff.mpr ⟨hc, hp⟩]

/-- The place in the frame of a page byte (R133, R134). -/
theorem frame_getElem?_data (F : Memory) (p : Page) (c : Column) :
    (frame F)[131 * p.toNat + 3 + c.toNat]? = some ⟨F.read p c, .data⟩ := by
  have hp := p.isLt
  have hc := c.isLt
  rw [frame, List.getElem?_map, List.getElem?_range (by omega), Option.map_some, frameEntry_data]

/-- The frame of the all-zero framebuffer has only zero data bytes; its other entries are commands. -/
theorem frameEntry_zero_byte (n : Nat) (h : (frameEntry Memory.zero n).kind = .data) :
    (frameEntry Memory.zero n).byte = 0x00 := by
  unfold frameEntry at h ⊢
  simp only [Memory.read_zero] at h ⊢
  split_ifs at h ⊢
  rfl

/-- Of two SETPX at one (x, y) the last one wins (R102). -/
theorem execState_setpx_setpx_same_read (x y : Byte) (a b : Bool) (s : State) (p : Page) (c : Column) :
    (execState (.setpx x y b) (execState (.setpx x y a) s)).fb.read p c = (execState (.setpx x y b) s).fb.read p c := by
  refine Memory.read_eq_of_pixel (fun i j hi hj => ?_) p c
  simp only [execState_setpx_pixel _ _ _ _ hi hj]
  split <;> rfl

/-- Two SETPX at different (x, y) commute, since no pixel is that of both (R102). -/
theorem execState_setpx_comm_read {x y x' y' : Byte} (hne : (x, y) ≠ (x', y')) (a b : Bool) (s : State) (p : Page)
    (c : Column) :
    (execState (.setpx x' y' b) (execState (.setpx x y a) s)).fb.read p c =
      (execState (.setpx x y a) (execState (.setpx x' y' b) s)).fb.read p c := by
  refine Memory.read_eq_of_pixel (fun i j hi hj => ?_) p c
  have hexcl : i = x.toNat ∧ j = y.toNat → ¬(i = x'.toNat ∧ j = y'.toNat) := fun h h' =>
    hne (Prod.ext (BitVec.eq_of_toNat_eq (h.1.symm.trans h'.1)) (BitVec.eq_of_toNat_eq (h.2.symm.trans h'.2)))
  simp only [execState_setpx_pixel _ _ _ _ hi hj]
  by_cases h : i = x.toNat ∧ j = y.toNat
  · rw [if_neg (hexcl h), if_pos h, if_pos h]
  · rw [if_neg h, if_neg h]

/-- Settles O42: every law is one of pixels, and what holds of all pixels holds of all bytes. -/
theorem setpxLaws : Obligations.SetpxLaws := by
  refine ⟨fun x y v s hx hy => ⟨_, _, exec_eq _ _, exec_eq _ _, ?_⟩, fun x y v s t x' y' ht hx' hy' hne => ?_,
    fun x y v s t hout ht => ?_,
    fun x y a b s => ⟨_, _, _, exec_eq _ _, exec_eq _ _, exec_eq _ _, execState_setpx_setpx_same_read x y a b s⟩,
    fun x y x' y' a b s _ _ _ _ hne => ⟨_, _, _, _, exec_eq _ _, exec_eq _ _, exec_eq _ _, exec_eq _ _,
      execState_setpx_comm_read hne a b s⟩⟩
  · simp [execState_getpx_rdata hx hy, execState_setpx_pixel x y v s hx hy]
  · obtain rfl := execState_of_exec ht
    rw [execState_setpx_pixel x y v s hx' hy', if_neg fun h => hne (Prod.ext h.1 h.2)]
  · obtain rfl := execState_of_exec ht
    simp [execState_setpx, inRange_eq_false_iff.mpr hout]

/-- Settles O43: the record of GETPX, and GETPX of the framebuffer that CLEAR leaves. -/
theorem getpxLaws : Obligations.GetpxLaws :=
  ⟨fun x y s => ⟨_, exec_eq _ _, execState_fb (by simp) (by simp) s⟩,
    fun x y s hx hy => ⟨_, exec_eq _ _, execState_getpx_rdata hx hy s⟩,
    fun x y s => ⟨s.zeroFb, _, exec_eq .clear s, exec_eq _ _, execState_getpx_rdata_zeroFb x y s⟩⟩

/-- Settles O44: the byte that RDBYTE reads is its eight pixels, and an entry of the frame. -/
theorem rdbyteLaws : Obligations.RdbyteLaws := by
  refine ⟨fun c p b s hc hp hb => ⟨_, _, exec_eq _ _, exec_eq _ _, ?_⟩,
    fun c p s hc hp => ⟨_, _, exec_eq _ _, issueAndWait_flush _, ?_⟩⟩
  · have hrow : (BitVec.ofNat 8 (8 * p.toNat + b)).toNat = 8 * p.toNat + b := by
      rw [BitVec.toNat_ofNat]
      omega
    rw [execState_getpx_rdata hc (by omega), hrow, execState_rdbyte_rdata hc hp,
      Memory.getLsbD_read_eq_pixel _ _ _ hb, columnOf_toNat hc, pageIndex_toNat hp]
  · have hentry := frame_getElem?_data s.fb (pageIndex p) (columnOf c)
    rw [pageIndex_toNat hp, columnOf_toNat hc] at hentry
    rw [execState_rdbyte_rdata hc hp, State.idleAfter, List.getElem?_append_right (Nat.le_add_right _ _),
      Nat.add_sub_cancel_left, execState_fb (by simp) (by simp), hentry]

/-- Settles O45: CLEAR leaves the all-zero framebuffer, whose frame has only zero data bytes. -/
theorem clearLaw : Obligations.ClearLaw := by
  refine fun s => ⟨s.zeroFb, exec_eq .clear s,
    fun x y => ⟨_, exec_eq _ _, execState_getpx_rdata_zeroFb x y s⟩, _, issueAndWait_flush _, rfl, fun e he => ?_⟩
  obtain ⟨n, -, rfl⟩ := List.mem_map.mp he
  exact frameEntry_zero_byte n

end Sys2Proof.Machine
end

section
/-! PROOFS. What one step is, read forwards: the state it leads to when its kind is known. -/

namespace Sys2Proof.Machine

theorem step_of_reset {s : State} (h : s.ports.rst = true) : step s = .next s.resetBlock.advancePorts := by
  simp [step, State.action_reset h]

theorem step_of_xfer {s : State} (hr : s.ports.rst = false) (hbusy : s.phase ≠ .idle)
    (htx : s.ports.txReady = true) : step s = .next s.xfer.advancePorts := by
  simp [step, State.action_busy hr hbusy, htx]

theorem step_of_wait {s : State} (hr : s.ports.rst = false) (hbusy : s.phase ≠ .idle)
    (htx : s.ports.txReady = false) : step s = .next s.advancePorts := by
  simp [step, State.action_busy hr hbusy, htx]

/-- An ACCEPT is the step of an idle block that is not reset and has a word presented to it (R131). -/
theorem State.accepted_eq_some_iff {s : State} {i : Instr} :
    s.accepted = some i ↔
      s.ports.rst = false ∧ s.phase = .idle ∧ ∃ w, s.presented = some w ∧ decode w = i := by
  cases hr : s.ports.rst with
  | true => simp [State.accepted, State.action_reset hr]
  | false =>
    by_cases hidle : s.phase = .idle
    · cases hw : s.presented with
      | none => simp [State.accepted_of_idle_none hr hidle hw]
      | some w => simp [State.accepted_of_presented hr hidle hw, hidle]
    · simp [State.accepted_of_busy hr hidle, hidle]

theorem step_of_accepted {s : State} {i : Instr} (h : s.accepted = some i) :
    step s = .next (execState i s.takeWord.advancePorts) := by
  obtain ⟨hr, hidle, w, hw, rfl⟩ := State.accepted_eq_some_iff.mp h
  simp [step, State.action_idle hr hidle, hw, exec_eq]

/-- FLUSH and CMD move the FSM; every other command leaves it where it is (R131, R141). -/
theorem execState_position (i : Instr) (s : State) :
    i = .flush ∨ (∃ b, i = .cmd b) ∨
      (execState i s).phase = s.phase ∧ (execState i s).page = s.page ∧ (execState i s).col = s.col := by
  cases i with
  | flush => exact .inl rfl
  | cmd byte => exact .inr (.inl ⟨byte, rfl⟩)
  | setpx x y on => rw [execState_setpx]; exact .inr (.inr ⟨rfl, rfl, rfl⟩)
  | getpx x y => rw [execState_getpx]; exact .inr (.inr ⟨rfl, rfl, rfl⟩)
  | rdbyte c p => rw [execState_rdbyte]; exact .inr (.inr ⟨rfl, rfl, rfl⟩)
  | nop | clear | clrstat | reserved op => exact .inr (.inr ⟨rfl, rfl, rfl⟩)

/-- The PHASE after the ACCEPT step (R131). -/
theorem execState_phase_of_idle {s : State} (hs : s.phase = .idle) (i : Instr) :
    (execState i s).phase = (match i with | .flush => .pgsel | .cmd _ => .cmdout | _ => .idle) := by
  cases i with
  | flush | cmd byte => rfl
  | setpx x y on => rw [execState_setpx]; exact hs
  | getpx x y => rw [execState_getpx]; exact hs
  | rdbyte c p => rw [execState_rdbyte]; exact hs
  | nop | clear | clrstat | reserved op => exact hs

end Sys2Proof.Machine
end

section
/-! PROOFS. R130, R131, R141: when a word is accepted, when it is held, and the moves of the FSM. -/

namespace Sys2Proof.Machine

theorem State.acceptEnabled_idle {s : State} (h : s.acceptEnabled = true) : s.phase = .idle := by
  simp only [State.acceptEnabled, Bool.and_eq_true, State.cmdReady_iff] at h
  exact h.2

theorem State.xferEnabled_busy {s : State} (h : s.xferEnabled = true) : s.phase ≠ .idle := by
  simp only [State.xferEnabled, Bool.and_eq_true, State.txValid_eq_busy, State.busy_iff] at h
  exact h.1

/-- Settles O7: an idle block has nothing to send, and a busy one is not ready for a word. -/
theorem acceptAndXferNeverTogether : Obligations.AcceptAndXferNeverTogether := fun _ =>
  ⟨State.acceptEnabled_idle, State.xferEnabled_busy,
    fun ⟨haccept, hxfer⟩ => State.xferEnabled_busy hxfer (State.acceptEnabled_idle haccept), step_of_reset⟩

/-- The step of a busy block that is not reset leaves the word presented to it, and all but the FSM and the trace. -/
theorem step_of_busy {s : State} (hr : s.ports.rst = false) (hbusy : s.phase ≠ .idle) :
    ∃ t, step s = .next t ∧ t.cmdQueue = s.cmdQueue ∧ t.fb = s.fb ∧ t.rdata = s.rdata ∧ t.cmdbuf = s.cmdbuf ∧
      t.ill = s.ill ∧ t.oob = s.oob := by
  cases htx : s.ports.txReady with
  | true => exact ⟨_, step_of_xfer hr hbusy htx, by simp⟩
  | false => exact ⟨_, step_of_wait hr hbusy htx, by simp⟩

/-- The positions whose XFER is the last one of a CMD or a FLUSH (R141). -/
theorem State.nextPosition_of_last {s : State}
    (h : s.phase = .cmdout ∨ s.phase = .data ∧ s.page = lastPage ∧ s.col = lastColumn) :
    s.nextPosition = s.setPosition .idle 0 0 := by
  obtain hph | ⟨hph, hp, hc⟩ := h
  · exact State.nextPosition_of_cmdout hph
  · exact State.nextPosition_of_lastByte hph hc hp

/-- Settles O8: what an ACCEPT is and leads to, the hold, and the XFER that lifts it. -/
theorem wordIsAcceptedOnlyWhenIdle : Obligations.WordIsAcceptedOnlyWhenIdle := by
  refine ⟨fun s i hr => ?_, fun s t i hi ht => ?_, fun s hr hbusy => step_of_busy hr hbusy,
    fun s hr htx hlast => ?_⟩
  · simp only [State.accepted_eq_some_iff, State.presented_eq_some, hr, true_and, and_assoc, exists_and_left]
  · obtain ⟨-, hidle, -⟩ := State.accepted_eq_some_iff.mp hi
    obtain rfl : execState i s.takeWord.advancePorts = t := by simpa [step_of_accepted hi] using ht
    obtain ⟨-, hqueue, -⟩ := execState_outside i s.takeWord.advancePorts
    refine ⟨execState_phase_of_idle (by simpa using hidle) i, by simpa using hqueue, ?_⟩
    rw [exec_eq, State.advancePorts_eq]
    rfl
  · have hpos : s.phase = .cmdout ∨ s.phase = .data ∧ s.page = lastPage ∧ s.col = lastColumn :=
      hlast.imp_left fun h => h.1
    have hbusy : s.phase ≠ .idle := by obtain h | ⟨h, -⟩ := hpos <;> simp [h]
    exact ⟨_, step_of_xfer hr hbusy htx, by simp [State.nextPosition_of_last hpos], by simp⟩

/-- A row of R141's table: the next position and the byte offered tell what an XFER step leads to. -/
theorem State.xfer_row {s : State} {ph : Phase} {p : Page} {c : Column} {e : TraceEntry}
    (hnext : s.nextPosition = s.setPosition ph p c) (hoffer : s.offer = some e) :
    s.xfer.advancePorts.phase = ph ∧ s.xfer.advancePorts.page = p ∧ s.xfer.advancePorts.col = c ∧
      s.xfer.advancePorts.trace = s.trace ++ [e] := by
  simp [hnext, hoffer]

/-- Settles O27: row by row; and of the kinds of step, a wait and the ACCEPT of any other command leave the FSM where
it is. -/
theorem walkMovesByTheTable : Obligations.WalkMovesByTheTable := by
  refine ⟨fun s hr htx hbusy => ⟨_, step_of_xfer hr hbusy htx, fun hph hc => ?_, fun hph hc => ?_,
    fun hph hc => ?_, fun hph hc => ?_, fun hph hc hp => ?_, fun hph hc hp => ?_, fun hph _ _ => ?_⟩,
    fun s t ht hmove => ?_⟩
  · exact hc ▸ State.xfer_row (State.nextPosition_of_pgsel hph) (State.offer_of_pgsel hph)
  · exact hc ▸ State.xfer_row (State.nextPosition_of_collo hph) (State.offer_of_collo hph)
  · exact hc ▸ State.xfer_row (State.nextPosition_of_colhi hph) (State.offer_of_colhi hph)
  · have hne : s.col ≠ lastColumn := fun h => by simp [h, lastColumn] at hc
    obtain ⟨hphase, hpage, hcol, htrace⟩ :=
      State.xfer_row (State.nextPosition_of_data hph hne) (State.offer_of_data hph)
    exact ⟨hphase, hpage, by rw [hcol, toNat_add_one_of_ne_lastColumn hne], htrace⟩
  · have hne : s.page ≠ lastPage := fun h => by simp [h, lastPage] at hp
    obtain ⟨hphase, hpage, hcol, htrace⟩ :=
      State.xfer_row (State.nextPosition_of_lastColumn hph hc hne) (State.offer_of_data hph)
    exact ⟨hphase, by rw [hpage, toNat_add_one_of_ne_lastPage hne], hcol, by rw [htrace, hc]⟩
  · obtain ⟨hphase, hpage, hcol, htrace⟩ :=
      State.xfer_row (State.nextPosition_of_lastByte hph hc hp) (State.offer_of_data hph)
    exact ⟨hphase, hpage, hcol, by rw [htrace, hc, hp]⟩
  · exact State.xfer_row (State.nextPosition_of_cmdout hph) (State.offer_of_cmdout hph)
  · obtain ⟨hr, -⟩ | ⟨hr, hidle, w, hw, rfl⟩ | ⟨-, hbusy, htx, -⟩ | ⟨-, rfl, -⟩ := step_cases ht
    · exact .inl hr
    · have hi := State.accepted_of_presented hr hidle hw
      obtain hflush | ⟨b, hcmd⟩ | ⟨hph, hp, hc⟩ := execState_position (decode w) s.takeWord.advancePorts
      · exact .inr (.inl (hflush ▸ hi))
      · exact .inr (.inr (.inl ⟨b, hcmd ▸ hi⟩))
      · exact absurd (by simp [hph, hp, hc]) hmove
    · exact .inr (.inr (.inr ⟨hbusy, htx⟩))
    · exact absurd (by simp) hmove

end Sys2Proof.Machine
end

section
/-! PROOFS. R133, R134: the frame, entry by entry and page by page. -/

namespace Sys2Proof.Machine

theorem frame_getElem? (F : Memory) {n : Nat} (hn : n < 1048) : (frame F)[n]? = some (frameEntry F n) := by
  rw [frame, List.getElem?_map, List.getElem?_range hn, Option.map_some]

/-- The first entries of the frame. -/
theorem frame_take (F : Memory) {k : Nat} (hk : k ≤ 1048) : (frame F).take k = (List.range k).map (frameEntry F) := by
  rw [frame, ← List.map_take, List.take_range, Nat.min_eq_left hk]

theorem frame_take_succ (F : Memory) {k : Nat} (hk : k < 1048) :
    (frame F).take (k + 1) = (frame F).take k ++ [frameEntry F k] := by
  rw [frame_take F hk, frame_take F hk.le, List.range_succ, List.map_append]
  rfl

/-- The frame depends on the bytes of FB alone. -/
theorem frame_congr {F G : Memory} (h : ∀ p c, F.read p c = G.read p c) : frame F = frame G := by
  have hentry : frameEntry F = frameEntry G := by
    funext n
    simp only [frameEntry, h]
  rw [frame, frame, hentry]

/-- The entries that a flush sends for one page (R133). -/
def framePage (F : Memory) (p : Nat) : List TraceEntry :=
  ⟨BitVec.ofNat 8 (0xB0 + p), .command⟩ :: ⟨0x00, .command⟩ :: ⟨0x10, .command⟩ ::
    (List.range 128).map fun c => ⟨F.read (BitVec.ofNat 3 p) (BitVec.ofNat 7 c), .data⟩

theorem framePage_eq_map_frameEntry (F : Memory) (p : Nat) :
    framePage F p = (List.range 131).map fun r => frameEntry F (131 * p + r) := by
  have hdata : ∀ c ∈ List.range 128, frameEntry F (131 * p + (3 + c)) =
      ⟨F.read (BitVec.ofNat 3 p) (BitVec.ofNat 7 c), .data⟩ := by
    intro c hc
    have hlt := List.mem_range.mp hc
    have hdiv : (131 * p + (3 + c)) / 131 = p := by omega
    have hmod : (131 * p + (3 + c)) % 131 = 3 + c := by omega
    simp [frameEntry, hdiv, hmod, show 3 + c ≠ 1 by omega, show 3 + c ≠ 2 by omega]
  rw [show 131 = 3 + 128 from rfl, List.range_add, List.map_append, List.map_map,
    List.map_congr_left (f := (fun r => frameEntry F (131 * p + r)) ∘ (3 + ·)) hdata]
  simp [framePage, List.range_succ, frameEntry]

/-- A list of n times m entries is n parts of m. -/
theorem map_range_mul {α : Type} (f : Nat → α) (m n : Nat) :
    (List.range (m * n)).map f = (List.range n).flatMap fun p => (List.range m).map fun r => f (m * p + r) := by
  induction n with
  | zero => rfl
  | succ n ih =>
    rw [Nat.mul_succ, List.range_add, List.map_append, ih, List.range_succ, List.flatMap_append, List.map_map]
    simp [Function.comp_def]

/-- The frame is its eight pages. -/
theorem frame_eq_flatMap_framePage (F : Memory) : frame F = (List.range 8).flatMap (framePage F) := by
  rw [frame, show 1048 = 131 * 8 from rfl, map_range_mul]
  simp only [← framePage_eq_map_frameEntry]

theorem framePage_countP_command (F : Memory) (p : Nat) : (framePage F p).countP (fun e => e.kind == .command) = 3 := by
  simp [framePage, List.countP_map, Function.comp_def]

theorem framePage_countP_data (F : Memory) (p : Nat) : (framePage F p).countP (fun e => e.kind == .data) = 128 := by
  simp [framePage, List.countP_map, Function.comp_def]

/-- The page of the all-zero framebuffer. -/
theorem framePage_zero (p : Nat) :
    framePage Memory.zero p = ⟨BitVec.ofNat 8 (0xB0 + p), .command⟩ :: ⟨0x00, .command⟩ :: ⟨0x10, .command⟩ ::
      List.replicate 128 ⟨0x00, .data⟩ := by
  simp [framePage]

/-- R133's closed form, by the place of an entry in its page. -/
theorem frameEntry_closedForm (F : Memory) {n : Nat} (hn : n < 1048) :
    (n % 131 = 0 → (frameEntry F n).byte.toNat = 0xB0 + n / 131 ∧ (frameEntry F n).kind = .command) ∧
    (n % 131 = 1 → (frameEntry F n).byte = 0x00 ∧ (frameEntry F n).kind = .command) ∧
    (n % 131 = 2 → (frameEntry F n).byte = 0x10 ∧ (frameEntry F n).kind = .command) ∧
    (3 ≤ n % 131 → (frameEntry F n).byte = F.read (BitVec.ofNat 3 (n / 131)) (BitVec.ofNat 7 (n % 131 - 3)) ∧
      (frameEntry F n).kind = .data) := by
  refine ⟨fun h => ?_, fun h => ?_, fun h => ?_, fun h => ?_⟩
  · have hbyte : 0xB0 + n / 131 < 256 := by omega
    simp [frameEntry, h, hbyte]
  · simp [frameEntry, h]
  · simp [frameEntry, h]
  · simp [frameEntry, show n % 131 ≠ 0 by omega, show n % 131 ≠ 1 by omega, show n % 131 ≠ 2 by omega]

/-- The page-select byte has 10110b above the three bits of the page. -/
theorem pageSelect_fields : ∀ p : Page,
    (pageSelect p).extractLsb' 0 3 = p ∧ (pageSelect p).extractLsb' 3 5 = 0b10110 := by
  decide

/-- Settles O29: each law at its entry of the frame. -/
theorem frameLaws : Obligations.FrameLaws := by
  refine ⟨fun F G h => frame_congr h, fun s => ⟨_, issueAndWait_flush s, rfl⟩, frame_getElem?_data,
    fun F x y hx hy => ?_, fun F p => ⟨_, frame_getElem? F ?_, ?_⟩⟩
  · have hentry := frame_getElem?_data F (BitVec.ofNat 3 (y / 8)) (BitVec.ofNat 7 x)
    have hpage : y / 8 % 2 ^ 3 = y / 8 := by omega
    have hcol : x % 2 ^ 7 = x := by omega
    rw [BitVec.toNat_ofNat, BitVec.toNat_ofNat, hpage, hcol] at hentry
    exact ⟨_, hentry, rfl⟩
  · have hp := p.isLt
    omega
  · rw [frameEntry_pageSelect]
    exact pageSelect_fields p

end Sys2Proof.Machine
end

section
/-! PROOFS. R133, R143: a flush under any delays of the transport. The states it goes through form a relation to the
state that accepted it, which every step but a reset keeps until the last byte is sent. -/

namespace Sys2Proof.Machine

/-- A state of the flush that began in `s`, after k XFERs: the walk stands at position k, the trace has grown by the
first k entries of the frame of FB as it was, and nothing else but the input wires has changed. -/
structure State.FlushedUpTo (s : State) (k : Nat) (t : State) : Prop where
  inv : t.FsmInv
  position : t.walkPosition = some k
  trace : t.trace = s.trace ++ (frame s.fb).take k
  kept : t = { s with
    phase := t.phase, page := t.page, col := t.col, trace := t.trace, ports := t.ports, upcoming := t.upcoming }

section FlushedUpTo
variable {s t : State} {k : Nat}

theorem State.FlushedUpTo.start (hph : s.phase = .pgsel) (hp : s.page = 0) (hc : s.col = 0) : s.FlushedUpTo 0 s where
  inv := .of_origin hp hc
  position := by simp [State.walkPosition, hph, hp]
  trace := by simp
  kept := rfl

theorem State.FlushedUpTo.busy (h : s.FlushedUpTo k t) : t.phase ≠ .idle :=
  State.busy_iff.mp (State.busy_of_walkPosition h.position)

theorem State.FlushedUpTo.fb (h : s.FlushedUpTo k t) : t.fb = s.fb := by rw [h.kept]

theorem State.FlushedUpTo.cmdQueue (h : s.FlushedUpTo k t) : t.cmdQueue = s.cmdQueue := by rw [h.kept]

/-- The byte offered next is the next entry of the frame. -/
theorem State.FlushedUpTo.offer (h : s.FlushedUpTo k t) : t.offer = some (frameEntry s.fb k) := by
  rw [State.offer_of_walkPosition h.position, h.fb]

theorem State.FlushedUpTo.advancePorts (h : s.FlushedUpTo k t) : s.FlushedUpTo k t.advancePorts where
  inv := h.inv.advancePorts
  position := by simpa [State.walkPosition] using h.position
  trace := by simpa using h.trace
  kept := by rw [State.advancePorts_eq, h.kept]

theorem State.FlushedUpTo.xfer (h : s.FlushedUpTo k t) (hk : k < 1047) : s.FlushedUpTo (k + 1) t.xfer where
  inv := h.inv.xfer
  position := h.inv.xfer_walkPosition h.position hk
  trace := by
    rw [State.xfer_trace, h.offer, h.trace, frame_take_succ s.fb (by omega), List.append_assoc]
    rfl
  kept := by rw [State.xfer_eq, h.kept]

/-- With the last XFER the block is idle again and has sent the whole frame. -/
theorem State.FlushedUpTo.xfer_last (h : s.FlushedUpTo 1047 t) :
    t.xfer = { s.idleAfter (frame s.fb) with ports := t.ports, upcoming := t.upcoming } := by
  have hframe : (frame s.fb).take 1047 ++ [frameEntry s.fb 1047] = frame s.fb := by
    rw [← frame_take_succ s.fb (by omega), List.take_of_length_le (frame_length s.fb).le]
  rw [State.xfer_of_walkPosition_last h.position, h.fb, State.idleAfter, h.trace, List.append_assoc, hframe, h.kept]
  rfl

end FlushedUpTo

/-- A run of n + 1 steps is a run of n and then a step. -/
theorem State.run_succ_last {s t : State} {n : Nat} (h : s.run n = .next t) : s.run (n + 1) = step t := by
  rw [State.run_add 1 h, State.run_succ (step_eq t), State.run_zero, step_eq]

theorem State.run_wires {s t : State} {n : Nat} (h : s.run n = .next t) (k : Nat) : t.wires k = s.wires (n + k) := by
  induction n generalizing s with
  | zero =>
    obtain rfl : s = t := by simpa using h
    rw [Nat.zero_add]
  | succ n ih =>
    rw [State.run_succ (step_eq s)] at h
    rw [ih h, step_wires (step_eq s), Nat.add_right_comm]

theorem State.run_ports {s t : State} {n : Nat} (h : s.run n = .next t) : t.ports = s.wires n := by
  rw [← State.wires_zero t, State.run_wires h, Nat.add_zero]

theorem State.readySteps_succ (s : State) (n : Nat) :
    s.readySteps (n + 1) = s.readySteps n + if (s.wires n).txReady then 1 else 0 := by
  simp [State.readySteps, List.range_succ]

/-- R143: however the transport delays it, an unreset flush has sent a byte for every step with the transport ready. -/
theorem State.run_flushedUpTo {s : State} (hs : s.FlushedUpTo 0 s) {n : Nat} (hreset : s.NoResetFor n)
    (hn : s.readySteps n < 1048) : ∃ t, s.run n = .next t ∧ s.FlushedUpTo (s.readySteps n) t := by
  induction n with
  | zero => exact ⟨s, rfl, hs⟩
  | succ n ih =>
    rw [State.readySteps_succ] at hn ⊢
    obtain ⟨t, hrun, ht⟩ := ih (fun k hk => hreset k (by omega)) (by omega)
    have hports := State.run_ports hrun
    have hr : t.ports.rst = false := hports ▸ hreset n (by omega)
    rw [State.run_succ_last hrun, ← hports]
    cases htx : t.ports.txReady with
    | true =>
      simp only [← hports, htx, if_true] at hn
      exact ⟨_, step_of_xfer hr ht.busy htx, (ht.xfer (by omega)).advancePorts⟩
    | false => exact ⟨_, step_of_wait hr ht.busy htx, ht.advancePorts⟩

/-- Settles O28: the states of an unfinished flush, its last XFER, and the frame page by page and entry by entry. -/
theorem flushSendsItsFrame : Obligations.FlushSendsItsFrame := by
  refine ⟨fun s n hph hp hc hreset hn => ?_, fun s n hph hp hc hreset hn htx => ?_, fun F => ⟨frame_length F, ?_, ?_,
    fun n hn => ⟨_, frame_getElem? F hn, frameEntry_closedForm F hn⟩⟩⟩
  · obtain ⟨t, hrun, ht⟩ := State.run_flushedUpTo (.start hph hp hc) hreset hn
    exact ⟨t, hrun, ht.position, ht.trace, ht.fb, ht.cmdQueue⟩
  · obtain ⟨t, hrun, ht⟩ :=
      State.run_flushedUpTo (.start hph hp hc) (n := n) (fun k hk => hreset k (by omega)) (by omega)
    rw [hn] at ht
    have hports := State.run_ports hrun
    have hstep := step_of_xfer (hports ▸ hreset n (by omega)) ht.busy (hports ▸ htx)
    rw [ht.xfer_last] at hstep
    refine ⟨_, (State.run_succ_last hrun).trans hstep, ?_⟩
    simp [State.idleAfter]
  · simp [frame_eq_flatMap_framePage, List.countP_flatMap, Function.comp_def, framePage_countP_command]
  · simp [frame_eq_flatMap_framePage, List.countP_flatMap, Function.comp_def, framePage_countP_data]

end Sys2Proof.Machine
end

section
/-! PROOFS. R132, R137: FLUSH and CMD to completion, alone and in lists. -/

namespace Sys2Proof.Machine

theorem issueAll_cons {i : Instr} {s t : State} (h : issueAndWait i s = .next t) (is : List Instr) :
    issueAll (i :: is) s = issueAll is t := by
  simp [issueAll, h]

theorem issueAll_singleton {i : Instr} {s t : State} (h : issueAndWait i s = .next t) :
    issueAll [i] s = .next t :=
  issueAll_cons h []

theorem issueAll_pair {i j : Instr} {s t u : State} (hi : issueAndWait i s = .next t)
    (hj : issueAndWait j t = .next u) : issueAll [i, j] s = .next u :=
  (issueAll_cons hi [j]).trans (issueAll_singleton hj)

/-- A command that leaves the block idle is complete with its ACCEPT step. -/
theorem issueAndWait_of_idle {i : Instr} {s : State} (h : (execState i s).phase = .idle) :
    issueAndWait i s = .next (execState i s) := by
  simp only [issueAndWait, exec_eq, State.finish_of_idle h]

/-- Settles O36: the ACCEPT step, the states of an unfinished flush, and FLUSH run to completion. -/
theorem flushStartsTheWalk : Obligations.FlushStartsTheWalk := by
  refine ⟨rfl, fun s => rfl, fun s n hph hp hc hreset hn => ?_, fun s => issueAll_singleton (issueAndWait_flush s),
    fun s => ?_, fun s hidle => ?_⟩
  · obtain ⟨t, hrun, ht⟩ := State.run_flushedUpTo (.start hph hp hc) hreset hn
    refine ⟨t, hrun, State.busy_iff.mpr ht.busy, ?_⟩
    rw [ht.kept]
    exact ⟨rfl, rfl, rfl, rfl⟩
  · rw [issueAll_pair (issueAndWait_flush s) (issueAndWait_flush _), ← List.append_assoc]
    rfl
  · refine ⟨_, issueAll_pair (issueAndWait_of_idle (i := .clear) hidle) (issueAndWait_flush _), ?_⟩
    simp only [State.idleAfter, execState, State.zeroFb_fb, State.zeroFb_trace, frame_eq_flatMap_framePage]
    rw [funext framePage_zero]

/-- A list of CMDs sends its bytes in order. -/
theorem issueAll_cmds (bs : List Byte) (s : State) :
    ∃ t, issueAll (bs.map Instr.cmd) s = .next t ∧ t.trace = s.trace ++ bs.map fun b => ⟨b, .command⟩ := by
  induction bs generalizing s with
  | nil => exact ⟨s, rfl, by simp⟩
  | cons b bs ih =>
    obtain ⟨t, ht, htrace⟩ := ih ((s.setCmdbuf b).idleAfter [⟨b, .command⟩])
    refine ⟨t, (issueAll_cons (issueAndWait_cmd b s) _).trans ht, ?_⟩
    rw [htrace]
    simp [State.idleAfter]

/-- Settles O47: CMD and FLUSH run to completion, one after the other. -/
theorem cmdLaws : Obligations.CmdLaws := by
  refine ⟨fun b s => issueAll_cmds [b] s, issueAll_cmds, fun b s =>
    ⟨⟨_, issueAll_pair (issueAndWait_flush s) (issueAndWait_cmd b _), ?_⟩,
      _, issueAll_pair (issueAndWait_cmd b s) (issueAndWait_flush _), ?_⟩⟩
  · simp [State.idleAfter]
  · simp [State.idleAfter]

end Sys2Proof.Machine
end

section
/-! PROOFS. R144: STATUS, field by field. -/

namespace Sys2Proof.Machine

/-- STATUS as a number: the fields of R28's table do not overlap, so its `or` is a sum. -/
theorem State.status_toNat (s : State) :
    s.status.toNat = 2 ^ 16 * s.col.toNat + (2 ^ 8 * s.page.toNat + (2 ^ 4 * s.phase.code.toNat +
      (2 ^ 2 * s.oob.toNat + (2 ^ 1 * s.ill.toNat + s.busy.toNat)))) := by
  have hcol := s.col.isLt
  have hpage := s.page.isLt
  have hcode := s.phase.code.isLt
  have hoob := s.oob.toNat_lt
  have hill := s.ill.toNat_lt
  have hbusy := s.busy.toNat_lt
  rw [Nat.two_pow_add_eq_or_of_lt (by omega), Nat.two_pow_add_eq_or_of_lt (by omega),
    Nat.two_pow_add_eq_or_of_lt (by omega), Nat.two_pow_add_eq_or_of_lt (by omega),
    Nat.two_pow_add_eq_or_of_lt (by omega)]
  simp (disch := omega) only [State.status, BitVec.or_assoc, BitVec.toNat_or, BitVec.toNat_shiftLeft,
    BitVec.toNat_setWidth, BitVec.toNat_ofBool, Nat.shiftLeft_eq, Nat.mod_eq_of_lt, Nat.mul_comm (2 ^ _)]

/-- A field of STATUS is the digits of that sum at its place. -/
theorem State.status_fields (s : State) :
    s.status.extractLsb' 4 3 = s.phase.code ∧ s.status.extractLsb' 8 3 = s.page ∧ s.status.extractLsb' 11 5 = 0 ∧
      s.status.extractLsb' 16 7 = s.col ∧ s.status.extractLsb' 23 9 = 0 := by
  have hcol := s.col.isLt
  have hpage := s.page.isLt
  have hcode := s.phase.code.isLt
  have hoob := s.oob.toNat_lt
  have hill := s.ill.toNat_lt
  have hbusy := s.busy.toNat_lt
  simp only [← BitVec.toNat_inj, BitVec.extractLsb'_toNat, Nat.shiftRight_eq_div_pow, State.status_toNat,
    BitVec.ofNat_eq_ofNat, BitVec.toNat_ofNat]
  omega

theorem State.status_bits (s : State) :
    s.status.getLsbD 0 = s.busy ∧ s.status.getLsbD 1 = s.ill ∧ s.status.getLsbD 2 = s.oob ∧
      s.status.getLsbD 3 = false ∧ s.status.getLsbD 7 = false := by
  simp [State.status]

/-- Settles O24: the bits and fields of the word, and its value in the spec's example. -/
theorem statusReadsTheFsm : Obligations.StatusReadsTheFsm := by
  refine ⟨fun s => ?_, fun s hph hp hc hill hoob => ?_⟩
  · obtain ⟨hbusy, hill, hoob, h3, h7⟩ := s.status_bits
    obtain ⟨hphase, hpage, hgap, hcol, htop⟩ := s.status_fields
    refine ⟨?_, hill, hoob, h3, ?_, h7, hpage, hgap, hcol, htop⟩
    · rw [hbusy, Bool.eq_iff_iff, State.busy_iff, decide_eq_true_iff]
    · rw [hphase]
      cases s.phase <;> rfl
  · rw [State.status, State.busy, hph, hp, hc, hill, hoob]
    decide

end Sys2Proof.Machine
end

section
/-! PROOFS. R135, R136, R138, R139: NOP, CMD, the reserved opcodes and CLRSTAT. -/

namespace Sys2Proof.Machine

/-- Settles O31: a word below 2^28 has OP 0. -/
theorem nopChangesNothing : Obligations.NopChangesNothing := by
  refine ⟨rfl, fun w hw => decode_of_nop (BitVec.eq_of_toNat_eq ?_), fun s => rfl⟩
  rw [opField_toNat]
  exact Nat.div_eq_of_lt hw

/-- Settles O38: CLRSTAT is `State.clearFlags`. -/
theorem clrstatClearsBothFlags : Obligations.ClrstatClearsBothFlags := ⟨rfl, fun s => exec_eq .clrstat s⟩

/-- Settles O39: bit 31 is the top bit of OP, so OP is at least 8. -/
theorem reservedSetsIllOnly : Obligations.ReservedSetsIllOnly := by
  refine ⟨fun w hw => decode_of_reserved ?_, fun op s _ => exec_eq (.reserved op) s⟩
  have htop : (opField w).getLsbD 3 = true := by simpa [opField] using hw
  generalize opField w = op at htop ⊢
  revert op
  decide

/-- Settles O37: the ACCEPT step of CMD, the STATUS it leaves, and its XFER. -/
theorem cmdSendsItsByte : Obligations.CmdSendsItsByte := by
  refine fun b s => ⟨rfl, rfl, fun t ht => ?_, fun t ht hr htx => ?_⟩
  · obtain rfl := execState_of_exec ht
    exact ⟨rfl, (State.status_fields _).1⟩
  · obtain rfl := execState_of_exec ht
    refine ⟨_, step_of_xfer hr (by simp [execState]) htx, ?_⟩
    rw [State.xfer_of_cmdout rfl]
    simp [State.idleAfter, execState]

end Sys2Proof.Machine
end

section
/-! PROOFS. R172 to R176: the walk of draw_string, character by character. -/

namespace Sys2Proof.Software

theorem printable_iff {code : Nat} : printable code = true ↔ 0x20 ≤ code ∧ code ≤ 0x7E := by
  simp [printable]

/-- The cursor after R172's wrap test. -/
def wrapCursor (size cx cy : Nat) : Nat × Nat := if 128 < cx + size / 2 then (0, cy + size) else (cx, cy)

section stringSteps
variable {size ch cx cy : Nat}

/-- One character of the walk, its integer comparisons read on natural numbers (R172). -/
theorem stringSteps_cons (hch : printable ch = true) (text : List Nat) :
    stringSteps size (ch :: text) cx cy =
      if 64 < (wrapCursor size cx cy).2 + size then
        .overflowClear :: .char 0 0 ch :: stringSteps size text (size / 2) 0
      else .char (wrapCursor size cx cy).1 (wrapCursor size cx cy).2 ch ::
        stringSteps size text ((wrapCursor size cx cy).1 + size / 2) (wrapCursor size cx cy).2 := by
  have hwrap : ((cx : Int) > 128 - ((size / 2 : Nat) : Int)) ↔ 128 < cx + size / 2 := by omega
  have hover (y : Nat) : ((y : Int) > 64 - (size : Int)) ↔ 64 < y + size := by omega
  simp only [stringSteps, hch, hwrap, hover, wrapCursor]
  by_cases h : 128 < cx + size / 2 <;> simp [h]

/-- A cell that ends by column 127 and row 63 is drawn where the cursor stands (R173). -/
theorem stringSteps_cons_inPlace (hch : printable ch = true) (hx : cx + size / 2 ≤ 128) (hy : cy + size ≤ 64)
    (text : List Nat) : stringSteps size (ch :: text) cx cy =
      .char cx cy ch :: stringSteps size text (cx + size / 2) cy := by
  simp [stringSteps_cons hch, wrapCursor, hx.not_gt, hy.not_gt]

/-- A cell that would pass column 128 goes to the start of the next row of cells, when that fits (R173). -/
theorem stringSteps_cons_wrapped (hch : printable ch = true) (hx : 128 < cx + size / 2) (hy : cy + size + size ≤ 64)
    (text : List Nat) : stringSteps size (ch :: text) cx cy =
      .char 0 (cy + size) ch :: stringSteps size text (size / 2) (cy + size) := by
  simp [stringSteps_cons hch, wrapCursor, hx, hy.not_gt]

/-- A row of cells that would pass row 64, wrapped to or not, is the first one of a cleared screen (R174). -/
theorem stringSteps_cons_overflow (hch : printable ch = true)
    (h : if 128 < cx + size / 2 then 64 < cy + size + size else 64 < cy + size) (text : List Nat) :
    stringSteps size (ch :: text) cx cy =
      .overflowClear :: .char 0 0 ch :: stringSteps size text (size / 2) 0 := by
  have hover : 64 < (wrapCursor size cx cy).2 + size := by
    rw [wrapCursor]
    split_ifs at h ⊢ <;> exact h
  rw [stringSteps_cons hch, if_pos hover]

end stringSteps

/-- Settles O51: the wrap and the overflow test of the walk, case by case. -/
theorem drawStringWrapsAndOverflows : Obligations.DrawStringWrapsAndOverflows := by
  intro size ch cx cy text hlo hhi
  have hch := printable_iff.mpr ⟨hlo, hhi⟩
  exact ⟨fun hx hy => stringSteps_cons_inPlace hch hx hy text, fun hx hy => stringSteps_cons_wrapped hch hx hy text,
    fun h => stringSteps_cons_overflow hch h text⟩

/-- Settles O52: by induction on the text, every character in place and the rest one cell further on. -/
theorem drawStringAdvancesByTheCell : Obligations.DrawStringAdvancesByTheCell := by
  intro size x y text htext hx hy
  induction text generalizing x with
  | nil => rfl
  | cons ch text ih =>
    obtain ⟨hch, hrest⟩ := List.forall_mem_cons.mp htext
    rw [List.length_cons, Nat.succ_mul] at hx
    rw [stringSteps_cons_inPlace (printable_iff.mpr hch) (by omega) hy, ih (x + size / 2) hrest (by omega),
      List.zipIdx_cons', List.map_cons, List.map_map]
    simp [Function.comp_def, Nat.succ_mul, Nat.add_assoc, Nat.add_comm (size / 2)]

end Sys2Proof.Software
end

section
/-! PROOFS. R170, R171: the cells of draw_number in closed form. -/

namespace Sys2Proof.Software

/-- The code of cell `t` of a number of `n` cells: its digit if it is the last one or if a digit at or before it is not
zero, else a blank (R171). -/
def numberCell (value n t : Nat) : Nat :=
  if t = n - 1 ∨ ∃ t' ≤ t, digitAt value n t' ≠ 0 then 0x30 + digitAt value n t else 0x20

section numberCodes
variable (value : Nat) {n left t : Nat} (enshow : Bool)

/-- The last cell shows its digit, whatever it is. -/
theorem numberCodes_last (ht : t + 1 = n) : numberCodes value n 1 t enshow = [0x30 + digitAt value n t] := by
  simp [numberCodes, show ¬t < n - 1 by omega]

/-- A cell before the last one is blank exactly if `enshow` is not set and its digit is zero. -/
theorem numberCodes_succ (ht : t + 1 < n) : numberCodes value n (left + 1) t enshow =
    (if enshow || digitAt value n t != 0 then 0x30 + digitAt value n t else 0x20) ::
      numberCodes value n left (t + 1) (enshow || digitAt value n t != 0) := by
  have hlt : t < n - 1 := by omega
  cases enshow <;> cases hd : digitAt value n t == 0 <;> simp [numberCodes, hlt, bne, hd]

end numberCodes

theorem exists_digit_le_iff (value n t : Nat) : (∃ t' ≤ t, digitAt value n t' ≠ 0) ↔
    (∃ t' < t, digitAt value n t' ≠ 0) ∨ digitAt value n t ≠ 0 := by
  simp only [Nat.le_iff_lt_or_eq, or_and_right, exists_or, exists_eq_left]

/-- The walk of R170 from cell `t` on, where `enshow` is set exactly if a digit before it is not zero. -/
theorem numberCodes_eq_map_numberCell {value n left t : Nat} {enshow : Bool} (ht : t + left = n)
    (hshow : enshow = true ↔ ∃ t' < t, digitAt value n t' ≠ 0) :
    numberCodes value n left t enshow = (List.range' t left).map (numberCell value n) := by
  induction left generalizing t enshow with
  | zero => rfl
  | succ left ih =>
    rcases Nat.eq_zero_or_pos left with rfl | hpos
    · rw [numberCodes_last value enshow ht]
      simp [numberCell, show t = n - 1 by omega]
    · have hshown : (enshow || digitAt value n t != 0) = true ↔ ∃ t' ≤ t, digitAt value n t' ≠ 0 := by
        rw [exists_digit_le_iff, ← hshow, Bool.or_eq_true, bne_iff_ne]
      rw [numberCodes_succ value enshow (by omega), ih (by omega) (by simpa only [Nat.lt_succ_iff] using hshown),
        List.range'_succ, List.map_cons, numberCell]
      simp only [hshown, show t ≠ n - 1 by omega, false_or]

theorem numberText_eq_map_numberCell (value n : Nat) :
    numberText value n = (List.range n).map (numberCell value n) := by
  rw [numberText, numberCodes_eq_map_numberCell (Nat.zero_add n) (by simp), List.range_eq_range']

/-- Only the low `n` digits of the value are read. -/
theorem digitAt_mod (value : Nat) {n t : Nat} (ht : t < n) : digitAt (value % 10 ^ n) n t = digitAt value n t := by
  have hpow : 10 ^ n = 10 ^ (n - 1 - t) * 10 ^ (t + 1) := by
    rw [← pow_add]
    congr 1
    omega
  rw [digitAt, digitAt, hpow, Nat.mod_mul_right_div_self, Nat.mod_mod_of_dvd _ (dvd_pow_self 10 t.succ_ne_zero)]

theorem numberCell_mod (value : Nat) {n t : Nat} (ht : t < n) :
    numberCell (value % 10 ^ n) n t = numberCell value n t := by
  have hdigits : (∃ t' ≤ t, digitAt (value % 10 ^ n) n t' ≠ 0) ↔ ∃ t' ≤ t, digitAt value n t' ≠ 0 :=
    exists_congr fun t' => and_congr_right fun ht' => by rw [digitAt_mod value (ht'.trans_lt ht)]
  simp only [numberCell, hdigits, digitAt_mod value ht]

theorem numberCell_zero (n t : Nat) : numberCell 0 n t = if t = n - 1 then 0x30 else 0x20 := by
  simp [numberCell, digitAt]

/-- Settles O50: each clause at the closed form of the cells. -/
theorem drawNumberCornerCases : Obligations.DrawNumberCornerCases := by
  refine ⟨fun value n => ?_, fun value n t ht => ?_, fun value n => ?_, fun n => ?_, fun value => ?_,
    fun P x y value size => rfl⟩
  · rw [numberText_eq_map_numberCell, List.length_map, List.length_range]
  · rw [numberText_eq_map_numberCell, List.getElem?_map, List.getElem?_range ht]
    rfl
  · rw [numberText_eq_map_numberCell, numberText_eq_map_numberCell]
    exact (List.map_congr_left fun t ht => numberCell_mod value (List.mem_range.mp ht)).symm
  · have hblank : ∀ t ∈ List.range n, numberCell 0 (n + 1) t = 0x20 := fun t ht => by
      simp [numberCell_zero, (List.mem_range.mp ht).ne]
    rw [numberText_eq_map_numberCell, List.range_succ, List.map_append, List.map_congr_left hblank]
    simp [numberCell_zero]
  · rw [numberText_eq_map_numberCell]
    simp [numberCell, digitAt]

end Sys2Proof.Software
end

section
/-! PROOFS. R163, R168: the command list of fill_rect. -/

namespace Sys2Proof.Software

/-- The points of an inclusive rectangle, x outer and y inner. -/
def rectPoints (x1 y1 x2 y2 : Nat) : List (Nat × Nat) :=
  (List.range (x2 + 1 - x1)).flatMap fun i => (List.range (y2 + 1 - y1)).map fun j => (x1 + i, y1 + j)

theorem mem_rectPoints {x1 y1 x2 y2 : Nat} {c : Nat × Nat} :
    c ∈ rectPoints x1 y1 x2 y2 ↔ (x1 ≤ c.1 ∧ c.1 ≤ x2) ∧ y1 ≤ c.2 ∧ c.2 ≤ y2 := by
  simp only [rectPoints, List.mem_flatMap, List.mem_map, List.mem_range]
  constructor
  · rintro ⟨i, hi, j, hj, rfl⟩
    omega
  · rintro ⟨⟨hx1, hx2⟩, hy1, hy2⟩
    exact ⟨c.1 - x1, by omega, c.2 - y1, by omega, Prod.ext (by simp [hx1]) (by simp [hy1])⟩

/-- The SETPX commands of a rectangle, a coordinate past 255 left out (R163, R168). -/
def rectCommands (x1 y1 x2 y2 : Nat) (on : Bool) : List Instr :=
  ((rectPoints x1 y1 x2 y2).filter fun c => decide (c.1 ≤ 255) && decide (c.2 ≤ 255)).map
    fun c => .setpx (BitVec.ofNat 8 c.1) (BitVec.ofNat 8 c.2) on

theorem upTo_eq_map_range (a b : Nat) : upTo a b = (List.range (b + 1 - a)).map (a + ·) := by
  rw [upTo, List.range'_eq_map_range]

theorem fillCalls_eq_map_rectPoints (x1 y1 x2 y2 : Nat) (on : Bool) :
    fillCalls x1 y1 x2 y2 on = (rectPoints x1 y1 x2 y2).map fun c => ⟨c.1, c.2, on⟩ := by
  simp [fillCalls, rectPoints, upTo_eq_map_range, List.map_flatMap, List.flatMap_map, Function.comp_def]

theorem filterMap_issue_fillCalls (x1 y1 x2 y2 : Nat) (on : Bool) :
    (fillCalls x1 y1 x2 y2 on).filterMap PixelCall.issue = rectCommands x1 y1 x2 y2 on := by
  rw [fillCalls_eq_map_rectPoints, rectCommands, List.filterMap_map, ← List.filterMap_eq_map, List.filterMap_filter]
  congr 1
  funext c
  simp [PixelCall.issue]

theorem fillRect_eq (x1 y1 x2 y2 : Nat) (on : Bool) :
    fillRect x1 y1 x2 y2 on = if x1 ≤ x2 ∧ y1 ≤ y2 then some (rectCommands x1 y1 x2 y2 on ++ [.flush]) else none := by
  rw [fillRect, filterMap_issue_fillCalls]

theorem exists_setpx_of_mem_rectCommands {x1 y1 x2 y2 : Nat} {on : Bool} :
    ∀ i ∈ rectCommands x1 y1 x2 y2 on, ∃ x y, i = .setpx x y on := by
  intro i hi
  obtain ⟨c, -, rfl⟩ := List.mem_map.mp hi
  exact ⟨_, _, rfl⟩

/-- A pixel of the screen has its command in the list exactly if it is in the rectangle. -/
theorem setpx_mem_rectCommands {x1 y1 x2 y2 x y : Nat} {on : Bool} (hx : x < 128) (hy : y < 64) :
    Instr.setpx (BitVec.ofNat 8 x) (BitVec.ofNat 8 y) on ∈ rectCommands x1 y1 x2 y2 on ↔
      x1 ≤ x ∧ x ≤ x2 ∧ y1 ≤ y ∧ y ≤ y2 := by
  simp only [rectCommands, List.mem_map, List.mem_filter, mem_rectPoints, Bool.and_eq_true, decide_eq_true_eq,
    Instr.setpx.injEq, and_true, ← BitVec.toNat_inj, BitVec.toNat_ofNat]
  constructor
  · rintro ⟨c, ⟨hc, hc1, hc2⟩, h1, h2⟩
    omega
  · intro h
    exact ⟨(x, y), by omega, rfl, rfl⟩

end Sys2Proof.Software
end

section
/-! PROOFS. R162, R175: which operations of the host hold a FLUSH. -/

namespace Sys2Proof.Software

theorem PixelCall.flush_notMem_issue (p : PixelCall) : Instr.flush ∉ p.issue := by
  unfold PixelCall.issue
  split <;> simp

theorem flush_notMem_drawChar (P : HostParams) (x y code size mode : Nat) :
    Instr.flush ∉ drawChar P x y code size mode := fun h => by
  obtain ⟨p, -, hp⟩ := List.mem_filterMap.mp h
  exact p.flush_notMem_issue hp

theorem StringStep.flush_notMem_issue (P : HostParams) (size : Nat) (a : StringStep) :
    Instr.flush ∉ a.issue P size := by
  cases a with
  | overflowClear => simp [StringStep.issue]
  | char cx cy code => exact flush_notMem_drawChar P cx cy code size 1

theorem flush_notMem_sendBytes (bs : List Byte) : Instr.flush ∉ sendBytes bs := by simp [sendBytes]

/-- Settles O53: a list that ends with FLUSH by its last element, one without by its parts. -/
theorem flushPolicyOfTheHost : Obligations.FlushPolicyOfTheHost := by
  refine ⟨rfl, fun x1 y1 x2 y2 on is h => ?_, fun P => ?_, fun x y on => by simp [drawPoint], flush_notMem_drawChar,
    fun P x y value n size h => ?_, fun P x y text size h => ?_,
    fun P => ⟨flush_notMem_sendBytes P.displayOnSeq, flush_notMem_sendBytes P.displayOffSeq⟩⟩
  · rw [fillRect_eq, Option.ite_none_right_eq_some] at h
    obtain ⟨-, h⟩ := h
    cases h
    rw [List.getLast?_concat]
  · rw [initDisplay, initCommands, List.map_append, List.getLast?_append, List.getLast?_append]
    rfl
  · obtain ⟨e, -, he⟩ := List.mem_flatMap.mp h
    exact flush_notMem_drawChar _ _ _ _ _ _ he
  · obtain ⟨a, -, ha⟩ := List.mem_flatMap.mp h
    exact a.flush_notMem_issue P size ha

end Sys2Proof.Software
end

section
/-! PROOFS. R61, R142: lists of commands, each run to completion. -/

namespace Sys2Proof.Machine

theorem issueAll_append {is : List Instr} {s t : State} (h : issueAll is s = .next t) (js : List Instr) :
    issueAll (is ++ js) s = issueAll js t := by
  induction is generalizing s with
  | nil =>
    obtain rfl : s = t := by simpa [issueAll] using h
    rfl
  | cons i is ih =>
    cases hi : issueAndWait i s with
    | next u => rw [List.cons_append, issueAll_cons hi, ih (by rwa [issueAll_cons hi] at h)]
    | fault r => exact nomatch r
    | refused r => simp [issueAll, hi] at h

/-- A command run to completion leaves an idle block idle. -/
theorem issueAndWait_idle {i : Instr} {s t : State} (hs : s.phase = .idle) (h : issueAndWait i s = .next t) :
    t.phase = .idle := by
  obtain rfl | ⟨b, rfl⟩ | ⟨hphase, -, -⟩ := execState_position i s
  · rw [issueAndWait_flush] at h
    cases h
    rfl
  · rw [issueAndWait_cmd] at h
    cases h
    rfl
  · rw [issueAndWait_of_idle (hphase.trans hs)] at h
    cases h
    exact hphase.trans hs

theorem issueAll_idle {is : List Instr} {s t : State} (hs : s.phase = .idle) (h : issueAll is s = .next t) :
    t.phase = .idle := by
  induction is generalizing s with
  | nil =>
    obtain rfl : s = t := by simpa [issueAll] using h
    exact hs
  | cons i is ih =>
    cases hi : issueAndWait i s with
    | next u => exact ih (issueAndWait_idle hs hi) (by rwa [issueAll_cons hi] at h)
    | fault r => exact nomatch r
    | refused r => simp [issueAll, hi] at h

/-- The actions of the host that are commands are those commands to the block. -/
theorem runActions_map_issue (is : List Instr) (s : State) : runActions (is.map .issue) s = issueAll is s := by
  induction is generalizing s with
  | nil => rfl
  | cons i is ih => simp only [List.map_cons, runActions, issueAll, ih]

end Sys2Proof.Machine
end

section
/-! PROOFS. R182: the trace of `initDisplay`. -/

namespace Sys2Proof.Machine

theorem byte_eq_zero_of_mem_frame_zero {e : TraceEntry} (he : e ∈ frame Memory.zero) (hdata : e.kind = .data) :
    e.byte = 0x00 := by
  obtain ⟨n, -, rfl⟩ := List.mem_map.mp he
  exact frameEntry_zero_byte n hdata

/-- CLEAR and then FLUSH sends the all-zero frame (R132). -/
theorem issueAll_clear_flush {s : State} (hs : s.phase = .idle) :
    issueAll [.clear, .flush] s = .next (s.zeroFb.idleAfter (frame Memory.zero)) :=
  issueAll_pair (issueAndWait_of_idle (i := .clear) hs) (issueAndWait_flush _)

/-- `initDisplay` is to the block its commands: the controller's reset line and the delay pass it by (R180). -/
theorem runActions_initDisplay (P : HostParams) (s : State) :
    runActions (Software.initDisplay P) s = issueAll (Software.initCommands P) s :=
  runActions_map_issue (Software.initCommands P) s

/-- Settles O54: the CMDs of INIT_SEQUENCE leave the block idle, so CLEAR and FLUSH follow. -/
theorem initializeSendsOneZeroFrame : Obligations.InitializeSendsOneZeroFrame := by
  intro P s hs
  obtain ⟨t, ht, htrace⟩ := issueAll_cmds P.initSequence s
  refine ⟨t.zeroFb.idleAfter (frame Memory.zero), ?_, ?_, fun e => byte_eq_zero_of_mem_frame_zero, ?_⟩
  · rw [runActions_initDisplay, Software.initCommands, Software.sendBytes, issueAll_append ht,
      issueAll_clear_flush (issueAll_idle hs ht)]
  · simp [State.idleAfter, htrace]
  · simp [State.idleAfter, htrace, frame_length, Nat.add_assoc]

end Sys2Proof.Machine
end

section
/-! PROOFS. R163, R164: what fill_rect does to the block. -/

namespace Sys2Proof.Machine

/-- SETPX commands of one value, whatever their order: they set exactly the pixels they name. -/
theorem issueAll_setpx {on : Bool} {is : List Instr} (his : ∀ i ∈ is, ∃ x y, i = .setpx x y on) {s : State}
    (hs : s.phase = .idle) :
    ∃ t, issueAll is s = .next t ∧ t.trace = s.trace ∧ ∀ x y, x < 128 → y < 64 → t.fb.pixel x y =
      if Instr.setpx (BitVec.ofNat 8 x) (BitVec.ofNat 8 y) on ∈ is then on else s.fb.pixel x y := by
  induction is generalizing s with
  | nil => exact ⟨s, rfl, rfl, by simp⟩
  | cons i is ih =>
    obtain ⟨⟨a, b, rfl⟩, hrest⟩ := List.forall_mem_cons.mp his
    have hidle := execState_phase_of_idle hs (.setpx a b on)
    obtain ⟨t, ht, htrace, hpixel⟩ := ih hrest hidle
    refine ⟨t, (issueAll_cons (issueAndWait_of_idle hidle) is).trans ht, ?_, fun x y hx hy => ?_⟩
    · rw [htrace, (execState_outside _ s).1]
    · have hhead : (x = a.toNat ∧ y = b.toNat) ↔
          Instr.setpx (BitVec.ofNat 8 x) (BitVec.ofNat 8 y) on = .setpx a b on := by
        simp only [Instr.setpx.injEq, and_true, ← BitVec.toNat_inj, BitVec.toNat_ofNat]
        omega
      rw [hpixel x y hx hy, execState_setpx_pixel a b on s hx hy]
      simp only [hhead, List.mem_cons, ite_or]
      split_ifs <;> rfl

/-- Settles O48: the rectangle's commands set its pixels in any order, and the FLUSH sends the frame of the result. -/
theorem fillRectSetsItsRectangle : Obligations.FillRectSetsItsRectangle := by
  refine ⟨fun x1 y1 x2 y2 on s hx hy hs => ?_, fun x1 y1 x2 y2 on h => by rw [Software.fillRect_eq, if_neg h]⟩
  have hsetpx := Software.exists_setpx_of_mem_rectCommands (x1 := x1) (y1 := y1) (x2 := x2) (y2 := y2) (on := on)
  obtain ⟨t, ht, htrace, hpixel⟩ := issueAll_setpx hsetpx hs
  refine ⟨Software.rectCommands x1 y1 x2 y2 on, t.idleAfter (frame t.fb),
    by rw [Software.fillRect_eq, if_pos ⟨hx, hy⟩], rfl,
    (issueAll_append ht _).trans (issueAll_singleton (issueAndWait_flush t)), fun x y hx hy => ?_,
    congrArg (· ++ frame t.fb) htrace, fun cs' hperm => ?_⟩
  · simp only [← Software.setpx_mem_rectCommands (on := on) hx hy]
    exact hpixel x y hx hy
  · obtain ⟨u, hu, -, hpixel'⟩ := issueAll_setpx (fun i hi => hsetpx i (hperm.mem_iff.mp hi)) hs
    refine ⟨u, hu, fun p c => Memory.read_eq_of_pixel (fun x y hx hy => ?_) p c⟩
    rw [hpixel' x y hx hy]
    simp only [hperm.mem_iff]
    exact (hpixel x y hx hy).symm

end Sys2Proof.Machine
end

section
/-! PROOFS. R165 to R169: draw_char in closed form. -/

namespace Sys2Proof.Software

/-- The call for row `j` of a glyph column whose bytes are `column`: bit 7 - j % 8 of byte j / 8 (R166). -/
def cellCall (column : Nat → Byte) (mode cx y j : Nat) : PixelCall :=
  ⟨cx, y + j, modeBit mode ((column (j / 8)).getLsbD (7 - j % 8))⟩

/-- The inner loop of R166 from bit `t` of byte `b` of a column on, at row 8 * b + t: the rest of the byte's rows, or of
the column's where that ends first. -/
theorem drawBits_eq (column : Nat → Byte) (mode cx y : Nat) {size b t n : Nat} (htn : t + n = 8)
    (hrow : 8 * b + t < size) :
    drawBits (column b) mode y size (List.range' t n) cx (y + (8 * b + t)) =
      ((List.range' (8 * b + t) (min n (size - (8 * b + t)))).map (cellCall column mode cx y),
        if size ≤ 8 * (b + 1) then (cx + 1, y) else (cx, y + 8 * (b + 1))) := by
  induction n generalizing t with
  | zero =>
    obtain rfl : t = 8 := htn
    simp [drawBits, Nat.mul_succ, hrow.not_ge]
  | succ n ih =>
    have hcall : cellCall column mode cx y (8 * b + t) =
        ⟨cx, y + (8 * b + t), modeBit mode ((column b).getLsbD (7 - t))⟩ := by
      simp [cellCall, show (8 * b + t) / 8 = b by omega, show (8 * b + t) % 8 = t by omega]
    rw [List.range'_succ, drawBits, ← hcall]
    by_cases hlast : 8 * b + t + 1 = size
    · have hmin : min (n + 1) (size - (8 * b + t)) = 1 := by omega
      simp [show y + (8 * b + t) + 1 - y = size by omega, hmin, show size ≤ 8 * (b + 1) by omega]
    · have hmin : min (n + 1) (size - (8 * b + t)) = min n (size - (8 * b + (t + 1))) + 1 := by omega
      have hn : 8 * b + (t + 1) < size := by omega
      have hrest := ih (by omega) hn
      simp only [show ¬y + (8 * b + t) + 1 - y = size by omega, if_false, hmin, List.range'_succ, List.map_cons]
      rw [show y + (8 * b + t) + 1 = y + (8 * b + (t + 1)) by omega, hrest]
      rfl

/-- The outer loop of R166 over the bytes of one column from byte `b` on: its rows from 8 * b on, then the rest of the
glyph from the top of the next column. -/
theorem drawBytes_column (column : Nat → Byte) (mode cx y : Nat) {size b k : Nat} (hk : b + k = bytesPerColumn size)
    (hrow : 8 * b < size) (rest : List Byte) :
    drawBytes mode y size ((List.range' b k).map column ++ rest) cx (y + 8 * b) =
      (List.range' (8 * b) (size - 8 * b)).map (cellCall column mode cx y) ++ drawBytes mode y size rest (cx + 1) y := by
  induction k generalizing b with
  | zero =>
    simp only [bytesPerColumn] at hk
    omega
  | succ k ih =>
    have hbits := drawBits_eq column mode cx y (t := 0) (n := 8) rfl hrow
    rw [List.range'_succ, List.map_cons, List.cons_append, drawBytes, List.range_eq_range']
    rw [Nat.add_zero] at hbits
    simp only [hbits]
    by_cases hlast : size ≤ 8 * (b + 1)
    · obtain rfl : k = 0 := by
        simp only [bytesPerColumn] at hk
        omega
      simp [hlast, show min 8 (size - 8 * b) = size - 8 * b by omega]
    · have hsplit : List.range' (8 * b) (size - 8 * b) =
          List.range' (8 * b) (min 8 (size - 8 * b)) ++ List.range' (8 * (b + 1)) (size - 8 * (b + 1)) := by
        rw [show min 8 (size - 8 * b) = 8 by omega, Nat.mul_succ, List.range'_append_1]
        congr 1
        omega
      rw [if_neg hlast, ih (by omega) (by omega), hsplit, List.map_append, List.append_assoc]

/-- The call for pixel (i, j) of a glyph cell (R166). -/
def glyphCall (P : HostParams) (index size mode x y i j : Nat) : PixelCall :=
  cellCall (fun r => P.glyph index size (bytesPerColumn size * i + r)) mode (x + i) y j

theorem drawBytes_columns (P : HostParams) (index mode x y : Nat) {size : Nat} (hsize : 0 < size) (i n : Nat) :
    drawBytes mode y size
      ((List.range' i n).flatMap fun c =>
        (List.range (bytesPerColumn size)).map fun r => P.glyph index size (bytesPerColumn size * c + r)) (x + i) y =
      (List.range' i n).flatMap fun c => (List.range size).map (glyphCall P index size mode x y c) := by
  induction n generalizing i with
  | zero => rfl
  | succ n ih =>
    have hcolumn := drawBytes_column (fun r => P.glyph index size (bytesPerColumn size * i + r)) mode (x + i) y
      (Nat.zero_add (bytesPerColumn size)) hsize
    simp only [Nat.mul_zero, Nat.add_zero, Nat.sub_zero, ← List.range_eq_range'] at hcolumn
    rw [List.range'_succ, List.flatMap_cons, List.flatMap_cons, hcolumn, Nat.add_assoc, ih]
    rfl

/-- The whole glyph cell, for every size that is not 0. -/
theorem drawBytes_glyphBytes (P : HostParams) (index mode x y : Nat) {size : Nat} (hsize : 0 < size) :
    drawBytes mode y size (glyphBytes P index size) x y =
      (List.range (size / 2)).flatMap fun i => (List.range size).map (glyphCall P index size mode x y i) := by
  rw [glyphBytes, glyphLength, Machine.map_range_mul, List.range_eq_range' (n := size / 2)]
  exact drawBytes_columns P index mode x y hsize 0 (size / 2)

theorem supportedSize_iff {size : Nat} : supportedSize size = true ↔ size = 12 ∨ size = 16 ∨ size = 24 := by
  simp [supportedSize, or_assoc]

theorem charCalls_eq (P : HostParams) (x y mode : Nat) {code size : Nat} (hsize : supportedSize size = true)
    (hcode : printable code = true) : charCalls P x y code size mode =
      (List.range (size / 2)).flatMap fun i =>
        (List.range size).map (glyphCall P (code - 0x20) size mode x y i) := by
  have hpos : 0 < size := by
    rw [supportedSize_iff] at hsize
    omega
  rw [charCalls, hsize, hcode, Bool.and_self, if_pos rfl, drawBytes_glyphBytes _ _ _ _ _ hpos]

/-- Settles O49: the closed form of the two loops, and the two guards of draw_char. -/
theorem drawCharPaintsTheCell : Obligations.DrawCharPaintsTheCell := by
  refine ⟨fun P x y code size mode hsize hlo hhi => ?_, fun P x y code size mode => rfl,
    fun P x y code size mode h => ?_⟩
  · rw [charCalls_eq P x y mode (supportedSize_iff.mpr hsize) (printable_iff.mpr ⟨hlo, hhi⟩)]
    exact ⟨rfl, by simp [Nat.mul_comm]⟩
  · have hguard : (supportedSize size && printable code) = false := by
      rw [← Bool.not_eq_true, Bool.and_eq_true, supportedSize_iff, printable_iff]
      omega
    simp [drawChar, charCalls, hguard]

end Sys2Proof.Software
end

section
/-! PROOFS. R221, R222: the reset step from any state, and a reset inside a FLUSH or a CMD. -/

namespace Sys2Proof.Machine

/-- Settles O12: the registers by the laws of `State.resetBlock`, FB by the law of `Memory.ofBytes`. -/
theorem resetStepFromAnyState : Obligations.ResetStepFromAnyState := fun _ hr =>
  ⟨_, step_of_reset hr, by simp⟩

/-- A run whose last step is a reset. -/
theorem State.run_succ_of_reset {s t : State} {n : Nat} (hrun : s.run n = .next t) (hr : (s.wires n).rst = true) :
    s.run (n + 1) = .next t.resetBlock.advancePorts := by
  rw [State.run_succ_last hrun, step_of_reset (State.run_ports hrun ▸ hr)]

/-- A busy block that is not reset and whose transport is never ready stays as it is, its input wires apart (R140). -/
theorem State.run_of_never_ready {s : State} (hbusy : s.phase ≠ .idle) {n : Nat} (hreset : s.NoResetFor n)
    (hn : s.readySteps n = 0) :
    ∃ t, s.run n = .next t ∧ t = { s with ports := t.ports, upcoming := t.upcoming } := by
  induction n with
  | zero => exact ⟨s, rfl, rfl⟩
  | succ n ih =>
    rw [State.readySteps_succ] at hn
    obtain ⟨t, hrun, ht⟩ := ih (fun k hk => hreset k (by omega)) (by omega)
    have hports := State.run_ports hrun
    have hr : t.ports.rst = false := hports ▸ hreset n (by omega)
    have htx : t.ports.txReady = false := by simpa [hports] using (Nat.add_eq_zero_iff.mp hn).2
    have hphase : t.phase = s.phase := by rw [ht]
    rw [State.run_succ_last hrun, step_of_wait hr (hphase ▸ hbusy) htx]
    exact ⟨_, rfl, by rw [State.advancePorts_eq, ht]⟩

/-- The only moves of the walk to IDLE are from the last byte of a CMD or a FLUSH (R141). -/
theorem State.last_of_nextPosition_idle {s : State} (hbusy : s.phase ≠ .idle) (hidle : s.nextPosition.phase = .idle) :
    s.phase = .cmdout ∨ s.phase = .data ∧ s.page = lastPage ∧ s.col = lastColumn := by
  cases hph : s.phase with
  | idle => exact absurd hph hbusy
  | pgsel => simp [State.nextPosition_of_pgsel hph] at hidle
  | collo => simp [State.nextPosition_of_collo hph] at hidle
  | colhi => simp [State.nextPosition_of_colhi hph] at hidle
  | data =>
    by_cases hc : s.col = lastColumn
    · by_cases hp : s.page = lastPage
      · exact .inr ⟨rfl, hp, hc⟩
      · simp [State.nextPosition_of_lastColumn hph hc hp] at hidle
    · simp [State.nextPosition_of_data hph hc] at hidle
  | cmdout => exact .inl rfl

/-- Settles O13: the flush or the CMD as it stood before the reset, then the reset step; and the kinds of step that
can end in IDLE. -/
theorem resetCutsAFlushShort : Obligations.ResetCutsAFlushShort := by
  refine ⟨fun s n hph hp hc hreset hr hn => ?_, fun s n hph hreset hr hn => ?_, fun s t hbusy hstep hidle => ?_⟩
  · obtain ⟨t, hrun, ht⟩ := State.run_flushedUpTo (.start hph hp hc) hreset hn
    exact ⟨_, _, State.run_succ_of_reset hrun hr, by simp, by simpa using ht.trace, issueAndWait_flush _, rfl⟩
  · obtain ⟨t, hrun, ht⟩ := State.run_of_never_ready (by simp [hph]) hreset hn
    have htrace : t.trace = s.trace := by rw [ht]
    exact ⟨_, State.run_succ_of_reset hrun hr, by simp, by simpa using htrace⟩
  · obtain ⟨hr, -⟩ | ⟨-, hph, -⟩ | ⟨-, -, htx, rfl⟩ | ⟨-, rfl, -⟩ := step_cases hstep
    · exact .inl hr
    · exact absurd hph hbusy
    · exact .inr ⟨htx, State.last_of_nextPosition_idle hbusy (by simpa using hidle)⟩
    · exact absurd (by simpa using hidle) hbusy

end Sys2Proof.Machine
end

section
/-! PROOFS. R140, R12: the transport port of a busy block, and what a step adds to the trace. -/

namespace Sys2Proof.Machine

/-- A busy block offers what its transport port shows, the kind by `tx_dc` (R23, R32). -/
theorem State.offer_of_busy {s : State} (hbusy : s.phase ≠ .idle) :
    s.offer = some ⟨s.txByte, if s.txDc then .data else .command⟩ := by
  have hvalid : s.txValid = true := by rwa [State.txValid_eq_busy, State.busy_iff]
  obtain ⟨⟨byte, kind⟩, hoffer⟩ := Option.isSome_iff_exists.mp hvalid
  obtain ⟨-, hbyte, hdc⟩ := State.txPort_of_offer hoffer
  rw [hoffer, hbyte, hdc]
  cases kind <;> rfl

/-- The trace after an XFER (R140). -/
theorem State.xfer_trace_of_busy {s : State} (hbusy : s.phase ≠ .idle) :
    s.xfer.trace = s.trace ++ [⟨s.txByte, if s.txDc then .data else .command⟩] := by
  rw [State.xfer_trace, State.offer_of_busy hbusy, Option.toList_some]

theorem State.xferEnabled_iff (s : State) : s.xferEnabled = true ↔ s.phase ≠ .idle ∧ s.ports.txReady = true := by
  rw [State.xferEnabled, Bool.and_eq_true, State.txValid_eq_busy, State.busy_iff]

/-- Settles O21: of the kinds of step, the XFER alone adds to the trace. -/
theorem traceOnlyGrowsByXfer : Obligations.TraceOnlyGrowsByXfer := by
  intro s t h
  obtain ⟨hr, rfl⟩ | ⟨-, hidle, w, -, rfl⟩ | ⟨hr, hbusy, htx, rfl⟩ | ⟨-, rfl, hwait⟩ := step_cases h
  · rw [if_neg fun hx => by simp [hr] at hx]
    simp
  · obtain ⟨htrace, -⟩ := execState_outside (decode w) s.takeWord.advancePorts
    rw [if_neg fun hx => hx.2.1 hidle, htrace]
    simp
  · rw [if_pos ⟨hr, hbusy, htx⟩, State.advancePorts_trace, State.xfer_trace_of_busy hbusy]
  · have hno : ¬(s.phase ≠ .idle ∧ s.ports.txReady = true) := by
      obtain ⟨hidle, -⟩ | ⟨-, htx⟩ := hwait <;> simp [*]
    rw [if_neg fun hx => hno hx.2, State.advancePorts_trace]

/-- Settles O26: when an XFER is enabled, its step, and the step that waits for the transport. -/
theorem xferNeedsAReadyTransport : Obligations.XferNeedsAReadyTransport := by
  refine ⟨State.xferEnabled_iff, fun s hr hx => ?_, fun s hr hbusy htx => ?_⟩
  · obtain ⟨hbusy, htx⟩ := s.xferEnabled_iff.mp hx
    refine ⟨_, step_of_xfer hr hbusy htx, ?_, ?_⟩
    · rw [State.advancePorts_trace, State.xfer_trace_of_busy hbusy]
    · simp
  · rw [step_of_wait hr hbusy htx, State.advancePorts_eq]

end Sys2Proof.Machine
end

section
/-! PROOFS. R131, R200, R221: the word presented to an idle block, and the host's words over a step. -/

namespace Sys2Proof.Machine

/-- Settles O10: the state that `stepState` gives. -/
theorem noStepEverStops : Obligations.NoStepEverStops := fun s => ⟨_, step_eq s⟩

theorem State.accepted_of_head {s : State} {w : Word} {rest : List Word} (hr : s.ports.rst = false)
    (hvalid : s.ports.cmdValid = true) (hidle : s.phase = .idle) (hw : s.cmdQueue = w :: rest) :
    s.accepted = some (decode w) :=
  State.accepted_of_presented hr hidle (State.presented_eq_some.mpr ⟨hvalid, by rw [hw, List.head?_cons]⟩)

/-- Settles O5: the word is accepted, and the state that `exec` gets is `takeWord` and `advancePorts` written out. -/
theorem stepRunsThePresentedCommand : Obligations.StepRunsThePresentedCommand := by
  rintro s w rest i hr hvalid hidle hw rfl
  rw [step_of_accepted (State.accepted_of_head hr hvalid hidle hw), exec_eq, State.advancePorts_eq, State.takeWord, hw]
  rfl

theorem tableWord_toNat (w : Word) : tableWord 32 w.toNat = w := by
  rw [tableWord, Nat.mod_eq_of_lt w.isLt, BitVec.ofNat_toNat, BitVec.setWidth_eq]

/-- Settles O6: `withFetchWord` presents the word to an idle block, so the step accepts it. -/
theorem fetchedWordIsRunNext : Obligations.FetchedWordIsRunNext := by
  intro s w
  have haccepted : (s.withFetchWord 32 w.toNat).accepted = some (decode w) :=
    State.accepted_of_head rfl rfl rfl (by rw [State.withFetchWord, tableWord_toNat])
  refine ⟨by rw [decodeTableWord, tableWord_toNat], (s.withFetchWord 32 w.toNat).takeWord.advancePorts, ?_, ?_⟩
  · rw [step_of_accepted haccepted, exec_eq]
  · simp [State.withFetchWord]

theorem State.accepted_of_reset {s : State} (hr : s.ports.rst = true) : s.accepted = none := by
  simp [State.accepted, State.action_reset hr]

theorem State.cmdQueue_ne_nil_of_accepted {s : State} {i : Instr} (h : s.accepted = some i) : s.cmdQueue ≠ [] := by
  obtain ⟨-, -, w, hw, -⟩ := State.accepted_eq_some_iff.mp h
  obtain ⟨-, hhead⟩ := State.presented_eq_some.mp hw
  intro hnil
  simp [hnil] at hhead

/-- Settles O9: of the kinds of step, the ACCEPT alone takes a word. -/
theorem wordsAreNeverLostOrReordered : Obligations.WordsAreNeverLostOrReordered := by
  intro s t h
  refine ⟨?_, fun hsome => ?_⟩
  · obtain ⟨hr, rfl⟩ | ⟨-, i, hi, rfl⟩ | ⟨-, hi, rfl | rfl⟩ := step_cases_accepted h
    · simp [State.accepted_of_reset hr]
    · obtain ⟨-, hqueue, -⟩ := execState_outside i s.takeWord.advancePorts
      simp [hi, hqueue]
    · simp [hi]
    · simp [hi]
  · obtain ⟨i, hi⟩ := Option.isSome_iff_exists.mp hsome
    exact State.cmdQueue_ne_nil_of_accepted hi

end Sys2Proof.Machine
end

section
/-! PROOFS. R20, R22, R26, R34, R57: the power-on state's invariants, and what each step makes of FB. -/

namespace Sys2Proof.Machine

/-- Settles O15: the FSM starts at the origin. -/
theorem powerOnMeetsFsmInvariant : Obligations.PowerOnMeetsFsmInvariant := .of_origin rfl rfl

/-- Settles O17: any array listed by `Memory.ofBytes` is in canonical form. -/
theorem powerOnFramebufferIsCanonical : Obligations.PowerOnFramebufferIsCanonical :=
  Memory.wf_ofBytes (Config.fbReset 0)

/-- SETPX writes by `Memory.write`, CLEAR the empty list, and no other command writes FB. -/
theorem execState_fb_wf (i : Instr) {s : State} (hs : s.fb.wf = true) : (execState i s).fb.wf = true := by
  cases i with
  | clear => exact Memory.wf_zero
  | setpx x y on =>
    rw [execState_setpx]
    split
    · exact Memory.wf_write _ _ _ hs
    · exact hs
  | _ => rwa [execState_fb (by simp) (by simp)]

/-- Settles O16: by the kind of step; an XFER and a wait leave FB. -/
theorem framebufferStaysCanonical : Obligations.FramebufferStaysCanonical := by
  intro s t hs h
  obtain ⟨-, rfl⟩ | ⟨-, i, -, rfl⟩ | ⟨-, -, rfl | rfl⟩ := step_cases_accepted h
  · simpa using Memory.wf_ofBytes (Config.fbReset s.resetIndex)
  · exact execState_fb_wf i (by simpa using hs)
  · simpa using hs
  · simpa using hs

/-- The byte that in-range operands address, as numbers. A Y whose page exists and an X that is a column are
in range, so the range check says nothing more. -/
theorem byteAddress_eq_iff (x y : Byte) (p : Page) (c : Column) :
    (inRange x y = true ∧ p = pageOf y ∧ c = columnOf x) ↔ (x.toNat = c.toNat ∧ y.toNat / 8 = p.toNat) := by
  have hp := p.isLt
  have hc := c.isLt
  simp only [inRange_iff, pageOf_eq, columnOf_eq, ← BitVec.toNat_inj, BitVec.toNat_ofNat]
  omega

/-- Settles O20: by the kind of step, and for an ACCEPT by the command. -/
theorem framebufferChangesOnlyAsTold : Obligations.FramebufferChangesOnlyAsTold := by
  intro s t h
  obtain ⟨hr, rfl⟩ | ⟨hr, i, hi, rfl⟩ | ⟨hr, hi, rfl | rfl⟩ := step_cases_accepted h
  · simp [hr]
  · obtain ⟨-, -, -, -, hindex⟩ := execState_outside i s.takeWord.advancePorts
    refine ⟨by simp [hr, hindex], fun p c => ?_⟩
    cases i with
    | clear => simp [hr, hi, execState]
    | setpx x y on =>
      simp only [hr, hi, execState_setpx_read, byteAddress_eq_iff, State.advancePorts_fb, State.takeWord_fb]
      rfl
    | _ => simp [hr, hi, execState_fb]
  · simp [hr, hi]
  · simp [hr, hi]

end Sys2Proof.Machine
end

section
/-! PROOFS. R28: no operation of a step reads ILL or OOB, so states that differ in them alone stay such. -/

namespace Sys2Proof.Machine

/-- The position after a move is a function of the position before it. -/
theorem State.nextPosition_congr {s u : State} (hph : u.phase = s.phase) (hp : u.page = s.page) (hc : u.col = s.col) :
    u.nextPosition.phase = s.nextPosition.phase ∧ u.nextPosition.page = s.nextPosition.page ∧
      u.nextPosition.col = s.nextPosition.col := by
  cases h : s.phase with
  | data =>
    by_cases hcol : s.col = lastColumn
    · by_cases hpage : s.page = lastPage <;> simp [State.nextPosition, hph, hp, hc, h, hcol, hpage]
    · simp [State.nextPosition, hph, hp, hc, h, hcol]
  | _ => simp [State.nextPosition, hph, hp, hc, h]

/-- `s` with the sticky flags at other values. -/
def State.withFlags (s : State) (i o : Bool) : State := { s with ill := i, oob := o }

section withFlags
variable (s : State) (i o : Bool)

theorem State.action_withFlags : (s.withFlags i o).action = s.action := rfl

theorem State.advancePorts_withFlags : (s.withFlags i o).advancePorts = s.advancePorts.withFlags i o := by
  rw [State.advancePorts_eq, State.advancePorts_eq]
  rfl

theorem State.xfer_withFlags : (s.withFlags i o).xfer = s.xfer.withFlags i o := by
  obtain ⟨hph, hp, hc⟩ := State.nextPosition_congr (s := s) (u := s.withFlags i o) rfl rfl rfl
  rw [State.xfer_eq, State.xfer_eq, hph, hp, hc]
  rfl

/-- A command sets, clears or carries along each flag, and reads it for nothing else. -/
theorem execState_withFlags (j : Instr) :
    ∃ i' o', execState j (s.withFlags i o) = (execState j s).withFlags i' o' := by
  cases j with
  | setpx x y on => simp only [execState_setpx]; exact ⟨i, o || !inRange x y, rfl⟩
  | getpx x y => simp only [execState_getpx]; exact ⟨i, o || !inRange x y, rfl⟩
  | rdbyte c p => simp only [execState_rdbyte]; exact ⟨i, o || !byteInRange c p, rfl⟩
  | clrstat => exact ⟨false, false, rfl⟩
  | reserved op => exact ⟨true, o, rfl⟩
  | nop | clear | flush | cmd byte => exact ⟨i, o, rfl⟩

theorem stepState_withFlags : ∃ i' o', stepState (s.withFlags i o) = (stepState s).withFlags i' o' := by
  unfold stepState
  rw [State.action_withFlags]
  cases s.action with
  | reset => exact ⟨false, false, s.resetBlock.advancePorts_withFlags false false⟩
  | accept w =>
    obtain ⟨i', o', h⟩ := execState_withFlags s.takeWord.advancePorts i o (decode w)
    exact ⟨i', o', by rw [← h, ← State.advancePorts_withFlags]; rfl⟩
  | transfer => exact ⟨i, o, by rw [State.xfer_withFlags, State.advancePorts_withFlags]⟩
  | wait => exact ⟨i, o, s.advancePorts_withFlags i o⟩

end withFlags

/-- Settles O23: the two states step to states that differ in the flags at most. -/
theorem flagsSteerNothing : Obligations.FlagsSteerNothing := by
  intro s i o
  obtain ⟨i', o', h⟩ := stepState_withFlags s i o
  exact ⟨stepState s, i', o', step_eq s, (step_eq _).trans (congrArg _ h)⟩

end Sys2Proof.Machine
end

section
/-! PROOFS. R61, R131, R142, R230: a stream of words against `issueAll`, in a cooperative environment. -/

namespace Sys2Proof.Machine

section Cooperative
variable {s t : State}

theorem State.Cooperative.congr (h : s.Cooperative) (hp : t.ports = s.ports) (hu : t.upcoming = s.upcoming) :
    t.Cooperative :=
  ⟨hp.trans h.1, hu.trans h.2⟩

theorem State.Cooperative.advancePorts_eq_self (h : s.Cooperative) : s.advancePorts = s := by
  rw [State.advancePorts, h.2]

theorem State.Cooperative.xfer (h : s.Cooperative) : s.xfer.Cooperative := h.congr s.xfer_ports s.xfer_upcoming

theorem State.Cooperative.execState (h : s.Cooperative) (i : Instr) : (execState i s).Cooperative := by
  obtain ⟨-, -, hp, hu, -⟩ := execState_outside i s
  exact h.congr hp hu

theorem State.Cooperative.step_of_busy (h : s.Cooperative) (hbusy : s.phase ≠ .idle) : step s = .next s.xfer := by
  rw [step_of_xfer (by rw [h.1]) hbusy (by rw [h.1]), h.xfer.advancePorts_eq_self]

theorem State.Cooperative.step_of_word (h : s.Cooperative) (hidle : s.phase = .idle) {i : Instr}
    (hi : i.wellFormed = true) {q : List Word} (hq : s.cmdQueue = encode i :: q) :
    step s = .next (Machine.execState i s.takeWord) := by
  have haccepted := State.accepted_of_head (by rw [h.1]) (by rw [h.1]) hidle hq
  rw [step_of_accepted haccepted, decode_encode hi, (h.congr (t := s.takeWord) rfl rfl).advancePorts_eq_self]

/-- From position n of the walk, the 1048 - n steps to its end are the XFERs that `State.finish` does. -/
theorem State.Cooperative.run_of_walkPosition (h : s.Cooperative) (hinv : s.FsmInv) {n k : Nat}
    (hn : s.walkPosition = some n) (hk : n + k = 1047) : s.run (k + 1) = .next (s.finish (k + 1)) := by
  induction k generalizing s n with
  | zero =>
    obtain rfl : n = 1047 := hk
    have hbusy := State.busy_of_walkPosition hn
    rw [State.run_succ (h.step_of_busy (State.busy_iff.mp hbusy)), State.finish_succ_of_busy hbusy]
    rfl
  | succ k ih =>
    have hbusy := State.busy_of_walkPosition hn
    rw [State.run_succ (h.step_of_busy (State.busy_iff.mp hbusy)), State.finish_succ_of_busy hbusy]
    exact ih h.xfer hinv.xfer (hinv.xfer_walkPosition hn (by omega)) (by omega)

/-- R230's steps of a command after its ACCEPT are the XFERs that `State.finish` does. -/
theorem State.Cooperative.run_after_accept (h : s.Cooperative) (hidle : s.phase = .idle) (i : Instr) :
    ∃ n, commandSteps i = n + 1 ∧
      (Machine.execState i s).run n = .next ((Machine.execState i s).finish Config.frameBytes) := by
  have hcoop := h.execState i
  have hphase := execState_phase_of_idle hidle i
  cases i with
  | flush => exact ⟨1048, rfl, hcoop.run_of_walkPosition (n := 0) (.of_origin rfl rfl) rfl rfl⟩
  | cmd byte =>
    have hbusy : (Machine.execState (.cmd byte) s).busy = true := rfl
    refine ⟨1, rfl, ?_⟩
    rw [State.run_succ (hcoop.step_of_busy (State.busy_iff.mp hbusy)), frameBytes_eq, State.finish_succ_of_busy hbusy,
      State.finish_of_idle (by rw [State.xfer_of_cmdout hphase]; rfl)]
    rfl
  | _ => exact ⟨0, rfl, by rw [State.finish_of_idle hphase]; rfl⟩

/-- The presented command runs to completion in R230's steps. -/
theorem State.Cooperative.run_commandSteps (h : s.Cooperative) (hidle : s.phase = .idle) {i : Instr}
    (hi : i.wellFormed = true) {q : List Word} (hq : s.cmdQueue = encode i :: q) :
    s.run (commandSteps i) = issueAndWait i s.takeWord := by
  obtain ⟨n, hn, hrun⟩ := (h.congr (t := s.takeWord) rfl rfl).run_after_accept hidle i
  rw [hn, State.run_succ (h.step_of_word hidle hi hq), hrun, issueAndWait, exec_eq]

end Cooperative

/-- `s` with these words for the host to present. -/
def State.presenting (s : State) (q : List Word) : State := { s with cmdQueue := q }

theorem execState_presenting (i : Instr) (s : State) (q : List Word) :
    execState i (s.presenting q) = (execState i s).presenting q := by
  cases i with
  | setpx x y on => simp only [execState_setpx]; rfl
  | getpx x y => simp only [execState_getpx]; rfl
  | rdbyte c p => simp only [execState_rdbyte]; rfl
  | nop | clear | flush | cmd byte | clrstat | reserved op => rfl

/-- A command run to completion completes, keeps the wires, and neither reads nor changes the host's words. -/
theorem issueAndWait_presenting (i : Instr) {s : State} (hidle : s.phase = .idle) :
    ∃ t, issueAndWait i s = .next t ∧ t.ports = s.ports ∧ t.upcoming = s.upcoming ∧
      ∀ q, issueAndWait i (s.presenting q) = .next (t.presenting q) := by
  obtain rfl | ⟨b, rfl⟩ | ⟨hphase, -, -⟩ := execState_position i s
  · exact ⟨_, issueAndWait_flush s, rfl, rfl, fun q => issueAndWait_flush (s.presenting q)⟩
  · exact ⟨_, issueAndWait_cmd b s, rfl, rfl, fun q => issueAndWait_cmd b (s.presenting q)⟩
  · have hcomplete := hphase.trans hidle
    obtain ⟨-, -, hp, hu, -⟩ := execState_outside i s
    refine ⟨_, issueAndWait_of_idle hcomplete, hp, hu, fun q => ?_⟩
    rw [← execState_presenting]
    exact issueAndWait_of_idle (by rwa [execState_presenting])

/-- The host's commands done by `issueAll`, and by the machine with their words presented to it. -/
theorem State.Cooperative.run_stream {is : List Instr} (his : ∀ i ∈ is, i.wellFormed = true) (rest : List Word)
    {s : State} (h : s.Cooperative) (hidle : s.phase = .idle) :
    ∃ t, issueAll is s = .next t ∧
      (s.presenting (is.map encode ++ rest)).run (is.map commandSteps).sum = .next (t.presenting rest) := by
  induction is generalizing s with
  | nil => exact ⟨s, rfl, rfl⟩
  | cons i is ih =>
    obtain ⟨hi, his'⟩ := List.forall_mem_cons.mp his
    obtain ⟨u, hu, hp, hup, hpresenting⟩ := issueAndWait_presenting i hidle
    obtain ⟨t, ht, hrun⟩ := ih his' (h.congr hp hup) (issueAndWait_idle hidle hu)
    have hcoop : (s.presenting ((i :: is).map encode ++ rest)).Cooperative := h.congr rfl rfl
    have hfirst := (hcoop.run_commandSteps hidle hi rfl).trans (hpresenting (is.map encode ++ rest))
    refine ⟨t, (issueAll_cons hu is).trans ht, ?_⟩
    rw [List.map_cons (f := commandSteps), List.sum_cons, State.run_add _ hfirst, hrun]

/-- Settles O30: by induction on the list, each command in the steps that R230 counts for it. -/
theorem commandStreamRunsInOrder : Obligations.CommandStreamRunsInOrder := by
  intro is rest s his hidle hcoop hq
  obtain ⟨t, ht, hrun⟩ := hcoop.run_stream his rest hidle
  exact ⟨t, ht, by rwa [← hq] at hrun⟩

end Sys2Proof.Machine
end

section
/-! PROOFS. R78: the operand ranges of the assembler. -/

namespace Sys2Proof

theorem Assembler.byteOperand_of_not_le {n : Nat} (h : ¬n ≤ 255) : byteOperand n = none := if_neg h

theorem Assembler.bitOperand_of_not_le {n : Nat} (h : ¬n ≤ 1) : bitOperand n = none := if_neg h

/-- Settles O56: each operand in its range or not. -/
theorem assemblerRejectsWhatDoesNotFit : Obligations.AssemblerRejectsWhatDoesNotFit := by
  intro x y on
  by_cases hx : x ≤ 255
  · by_cases hy : y ≤ 255
    · by_cases hon : on ≤ 1
      · simp [Assembler.build, Assembler.byteOperand_of_le, Assembler.bitOperand_of_le, hx, hy, hon]
      · simp [Assembler.build, Assembler.byteOperand_of_le, Assembler.bitOperand_of_not_le, hx, hy, hon]
    · simp [Assembler.build, Assembler.byteOperand_of_le, Assembler.byteOperand_of_not_le, hx, hy]
  · simp [Assembler.build, Assembler.byteOperand_of_not_le, hx]

end Sys2Proof
end
